-- ==== Sys2Proof/Word.lean ====
section
/-! DEFINITION. The machine's words (spec/00_scope.md rules R5, R6): every value is unsigned, bit 0 is the least
significant bit. -/

namespace Sys2Proof

/-- A byte of Memory, a general register, a timer (rules R11, R16, R17). -/
abbrev Byte := BitVec 8

/-- A 16-bit value: the index register, the program counter, a stack entry, an instruction word (rules R13 to R15, R60). -/
abbrev Word := BitVec 16

/-- A 4-bit operand field: a register number, a sprite height, a key number (rule R61). -/
abbrev Nibble := BitVec 4

/-- The 12-bit address field NNN (rule R61). -/
abbrev Addr12 := BitVec 12

/-- The number of a general register; every value names one of V0 to VF (rule R11). -/
abbrev Reg := Nibble

/-- A Boolean as the byte 0x01 or 0x00, the only two values a flag result takes (rule R12). -/
def flagByte (b : Bool) : Byte := if b then 1 else 0

end Sys2Proof
end

