-- ==== Sys2Proof/Syntax.lean ====
section
/-! DEFINITION. The instructions: one constructor per row of spec/opcode_table.json (spec/30_encoding.md rule R65), in
the table's order, and their operand fields (rule R61). -/

namespace Sys2Proof

/-- The 34 instructions of rule R65. `x` and `y` are the fields X and Y, `nn` is NN, `nnn` is NNN, `n` is N. -/
inductive Instr where
  | cls                             -- 00E0  CLS
  | ret                             -- 00EE  RET
  | jp (nnn : Addr12)               -- 1NNN  JP NNN
  | call (nnn : Addr12)             -- 2NNN  CALL NNN
  | seImm (x : Reg) (nn : Byte)     -- 3XNN  SE Vx, NN
  | sneImm (x : Reg) (nn : Byte)    -- 4XNN  SNE Vx, NN
  | seReg (x y : Reg)               -- 5XY0  SE Vx, Vy
  | ldImm (x : Reg) (nn : Byte)     -- 6XNN  LD Vx, NN
  | addImm (x : Reg) (nn : Byte)    -- 7XNN  ADD Vx, NN
  | ldReg (x y : Reg)               -- 8XY0  LD Vx, Vy
  | orReg (x y : Reg)               -- 8XY1  OR Vx, Vy
  | andReg (x y : Reg)              -- 8XY2  AND Vx, Vy
  | xorReg (x y : Reg)              -- 8XY3  XOR Vx, Vy
  | addReg (x y : Reg)              -- 8XY4  ADD Vx, Vy
  | subReg (x y : Reg)              -- 8XY5  SUB Vx, Vy
  | shr (x y : Reg)                 -- 8XY6  SHR Vx (, Vy)
  | subnReg (x y : Reg)             -- 8XY7  SUBN Vx, Vy
  | shl (x y : Reg)                 -- 8XYE  SHL Vx (, Vy)
  | sneReg (x y : Reg)              -- 9XY0  SNE Vx, Vy
  | ldI (nnn : Addr12)              -- ANNN  LD I, NNN
  | jpV0 (nnn : Addr12)             -- BNNN  JP V0, NNN
  | rnd (x : Reg) (nn : Byte)       -- CXNN  RND Vx, NN
  | drw (x y : Reg) (n : Nibble)    -- DXYN  DRW Vx, Vy, N
  | skp (x : Reg)                   -- EX9E  SKP Vx
  | sknp (x : Reg)                  -- EXA1  SKNP Vx
  | ldVxDt (x : Reg)                -- FX07  LD Vx, DT
  | ldVxK (x : Reg)                 -- FX0A  LD Vx, K
  | ldDtVx (x : Reg)                -- FX15  LD DT, Vx
  | ldStVx (x : Reg)                -- FX18  LD ST, Vx
  | addI (x : Reg)                  -- FX1E  ADD I, Vx
  | ldF (x : Reg)                   -- FX29  LD F, Vx
  | ldB (x : Reg)                   -- FX33  LD B, Vx
  | stRegs (x : Reg)                -- FX55  LD [I], Vx
  | ldRegs (x : Reg)                -- FX65  LD Vx, [I]
deriving DecidableEq, Repr

/-- The names of the operand fields (rule R61). -/
inductive FieldName where
  | x | y | n | nn | nnn
deriving DecidableEq, Repr

/-- The width of an operand field in bits (rule R61). -/
def FieldName.width : FieldName → Nat
  | .x | .y | .n => 4
  | .nn => 8
  | .nnn => 12

/-- One operand as a field and a number, before the number is known to fit. -/
structure Operand where
  field : FieldName
  value : Nat
deriving DecidableEq, Repr

/-- The operands of an instruction, in the order of its format (rule R62). -/
def Instr.operands : Instr → List Operand
  | .cls | .ret => []
  | .jp a | .call a | .ldI a | .jpV0 a => [⟨.nnn, a.toNat⟩]
  | .seImm x k | .sneImm x k | .ldImm x k | .addImm x k | .rnd x k => [⟨.x, x.toNat⟩, ⟨.nn, k.toNat⟩]
  | .seReg x y | .sneReg x y | .ldReg x y | .orReg x y | .andReg x y | .xorReg x y | .addReg x y | .subReg x y
  | .shr x y | .subnReg x y | .shl x y => [⟨.x, x.toNat⟩, ⟨.y, y.toNat⟩]
  | .drw x y n => [⟨.x, x.toNat⟩, ⟨.y, y.toNat⟩, ⟨.n, n.toNat⟩]
  | .skp x | .sknp x | .ldVxDt x | .ldVxK x | .ldDtVx x | .ldStVx x | .addI x | .ldF x | .ldB x | .stRegs x
  | .ldRegs x => [⟨.x, x.toNat⟩]

end Sys2Proof
end

