-- ==== Sys2Proof/Decode.lean ====
section
/-! DEFINITION. The decoder and the encoder: field extraction (spec/30_encoding.md rule R61), the opcode map
(rule R65) with its matching predicate (rule R63), decoding of a word and of bytes in Memory order (rules R60, R43),
and the encoder, written from the bit pictures of rule R62. -/

namespace Sys2Proof

/-- Field X, `raw[11:8]` (rule R61). -/
def fieldX (raw : Word) : Nibble := raw.extractLsb' 8 4

/-- Field Y, `raw[7:4]` (rule R61). -/
def fieldY (raw : Word) : Nibble := raw.extractLsb' 4 4

/-- Field N, `raw[3:0]` (rule R61). -/
def fieldN (raw : Word) : Nibble := raw.extractLsb' 0 4

/-- Field NN, `raw[7:0]` (rule R61). -/
def fieldNN (raw : Word) : Byte := raw.extractLsb' 0 8

/-- Field NNN, `raw[11:0]` (rule R61). -/
def fieldNNN (raw : Word) : Addr12 := raw.extractLsb' 0 12

/-- A row of the opcode map (rule R65): the fixed-bit value, the mask of the fixed bits, and the operand extraction
(the source's `Update`, rule R83). -/
structure OpcodeRow where
  pattern : Word
  mask : Word
  build : Word → Instr

/-- The matching predicate `(raw & mask) == pattern` (rule R63). -/
def OpcodeRow.selects (r : OpcodeRow) (raw : Word) : Bool := raw &&& r.mask == r.pattern

/-- Rows 1 to 9 of rule R65: control transfer, load immediate, add immediate. -/
def opcodeRows1 : List OpcodeRow :=
  [ ⟨0x00E0, 0xFFFF, fun _ => .cls⟩,
    ⟨0x00EE, 0xFFFF, fun _ => .ret⟩,
    ⟨0x1000, 0xF000, fun w => .jp (fieldNNN w)⟩,
    ⟨0x2000, 0xF000, fun w => .call (fieldNNN w)⟩,
    ⟨0x3000, 0xF000, fun w => .seImm (fieldX w) (fieldNN w)⟩,
    ⟨0x4000, 0xF000, fun w => .sneImm (fieldX w) (fieldNN w)⟩,
    ⟨0x5000, 0xF00F, fun w => .seReg (fieldX w) (fieldY w)⟩,
    ⟨0x6000, 0xF000, fun w => .ldImm (fieldX w) (fieldNN w)⟩,
    ⟨0x7000, 0xF000, fun w => .addImm (fieldX w) (fieldNN w)⟩ ]

/-- Rows 10 to 19 of rule R65: the register-register instructions. -/
def opcodeRows2 : List OpcodeRow :=
  [ ⟨0x8000, 0xF00F, fun w => .ldReg (fieldX w) (fieldY w)⟩,
    ⟨0x8001, 0xF00F, fun w => .orReg (fieldX w) (fieldY w)⟩,
    ⟨0x8002, 0xF00F, fun w => .andReg (fieldX w) (fieldY w)⟩,
    ⟨0x8003, 0xF00F, fun w => .xorReg (fieldX w) (fieldY w)⟩,
    ⟨0x8004, 0xF00F, fun w => .addReg (fieldX w) (fieldY w)⟩,
    ⟨0x8005, 0xF00F, fun w => .subReg (fieldX w) (fieldY w)⟩,
    ⟨0x8006, 0xF00F, fun w => .shr (fieldX w) (fieldY w)⟩,
    ⟨0x8007, 0xF00F, fun w => .subnReg (fieldX w) (fieldY w)⟩,
    ⟨0x800E, 0xF00F, fun w => .shl (fieldX w) (fieldY w)⟩,
    ⟨0x9000, 0xF00F, fun w => .sneReg (fieldX w) (fieldY w)⟩ ]

/-- Rows 20 to 34 of rule R65: index, jump with offset, random, draw, keys, timers, memory blocks. -/
def opcodeRows3 : List OpcodeRow :=
  [ ⟨0xA000, 0xF000, fun w => .ldI (fieldNNN w)⟩,
    ⟨0xB000, 0xF000, fun w => .jpV0 (fieldNNN w)⟩,
    ⟨0xC000, 0xF000, fun w => .rnd (fieldX w) (fieldNN w)⟩,
    ⟨0xD000, 0xF000, fun w => .drw (fieldX w) (fieldY w) (fieldN w)⟩,
    ⟨0xE09E, 0xF0FF, fun w => .skp (fieldX w)⟩,
    ⟨0xE0A1, 0xF0FF, fun w => .sknp (fieldX w)⟩,
    ⟨0xF007, 0xF0FF, fun w => .ldVxDt (fieldX w)⟩,
    ⟨0xF00A, 0xF0FF, fun w => .ldVxK (fieldX w)⟩,
    ⟨0xF015, 0xF0FF, fun w => .ldDtVx (fieldX w)⟩,
    ⟨0xF018, 0xF0FF, fun w => .ldStVx (fieldX w)⟩,
    ⟨0xF01E, 0xF0FF, fun w => .addI (fieldX w)⟩,
    ⟨0xF029, 0xF0FF, fun w => .ldF (fieldX w)⟩,
    ⟨0xF033, 0xF0FF, fun w => .ldB (fieldX w)⟩,
    ⟨0xF055, 0xF0FF, fun w => .stRegs (fieldX w)⟩,
    ⟨0xF065, 0xF0FF, fun w => .ldRegs (fieldX w)⟩ ]

/-- The opcode map of rule R65, 34 rows in its order. The order carries no meaning (rules R66, R89). -/
def opcodeTable : List OpcodeRow := opcodeRows1 ++ opcodeRows2 ++ opcodeRows3

/-- Decode one word (rules R63, R82, R83): the row that selects it builds the instruction; `none` is an illegal word
(rule R67), the condition UnknownOpcode of the cycle. -/
def decodeWord (raw : Word) : Option Instr :=
  (opcodeTable.find? fun r => r.selects raw).map fun r => r.build raw

/-- Why bytes are no instruction. -/
inductive DecodeError where
  /-- Fewer than two bytes are given: every instruction has exactly two (rule R60). -/
  | truncated
  /-- The word matches no row (rule R67). -/
  | unknownOpcode (raw : Word)
deriving DecidableEq, Repr

/-- Two bytes in Memory order as a word, the byte at the lower address in bits 15:8 (rule R43). -/
def wordOfBytes (hi lo : Byte) : Word := hi ++ lo

/-- Decode from bytes in Memory order: the instruction and the bytes after it, or the reason there is none. -/
def decodeBytes : List Byte → Except DecodeError (Instr × List Byte)
  | hi :: lo :: rest =>
    match decodeWord (wordOfBytes hi lo) with
    | some i => .ok (i, rest)
    | none => .error (.unknownOpcode (wordOfBytes hi lo))
  | _ => .error .truncated

/-- The word of an instruction: fixed bits and operand fields side by side, as the bit pictures of rule R62 draw them. -/
def encode : Instr → Word
  | .cls => 0x00E0
  | .ret => 0x00EE
  | .jp nnn => 0x1#4 ++ nnn
  | .call nnn => 0x2#4 ++ nnn
  | .seImm x nn => 0x3#4 ++ x ++ nn
  | .sneImm x nn => 0x4#4 ++ x ++ nn
  | .seReg x y => 0x5#4 ++ x ++ y ++ 0x0#4
  | .ldImm x nn => 0x6#4 ++ x ++ nn
  | .addImm x nn => 0x7#4 ++ x ++ nn
  | .ldReg x y => 0x8#4 ++ x ++ y ++ 0x0#4
  | .orReg x y => 0x8#4 ++ x ++ y ++ 0x1#4
  | .andReg x y => 0x8#4 ++ x ++ y ++ 0x2#4
  | .xorReg x y => 0x8#4 ++ x ++ y ++ 0x3#4
  | .addReg x y => 0x8#4 ++ x ++ y ++ 0x4#4
  | .subReg x y => 0x8#4 ++ x ++ y ++ 0x5#4
  | .shr x y => 0x8#4 ++ x ++ y ++ 0x6#4
  | .subnReg x y => 0x8#4 ++ x ++ y ++ 0x7#4
  | .shl x y => 0x8#4 ++ x ++ y ++ 0xE#4
  | .sneReg x y => 0x9#4 ++ x ++ y ++ 0x0#4
  | .ldI nnn => 0xA#4 ++ nnn
  | .jpV0 nnn => 0xB#4 ++ nnn
  | .rnd x nn => 0xC#4 ++ x ++ nn
  | .drw x y n => 0xD#4 ++ x ++ y ++ n
  | .skp x => 0xE#4 ++ x ++ 0x9E#8
  | .sknp x => 0xE#4 ++ x ++ 0xA1#8
  | .ldVxDt x => 0xF#4 ++ x ++ 0x07#8
  | .ldVxK x => 0xF#4 ++ x ++ 0x0A#8
  | .ldDtVx x => 0xF#4 ++ x ++ 0x15#8
  | .ldStVx x => 0xF#4 ++ x ++ 0x18#8
  | .addI x => 0xF#4 ++ x ++ 0x1E#8
  | .ldF x => 0xF#4 ++ x ++ 0x29#8
  | .ldB x => 0xF#4 ++ x ++ 0x33#8
  | .stRegs x => 0xF#4 ++ x ++ 0x55#8
  | .ldRegs x => 0xF#4 ++ x ++ 0x65#8

/-- The two bytes of an instruction in Memory order, high byte first (rules R43, R60). -/
def encodeBytes (i : Instr) : List Byte := [(encode i).extractLsb' 8 8, (encode i).extractLsb' 0 8]

/-- The word that the low `nbits` bits of `w` give: an instruction is one word, whose bits the opcode table numbers as
the word's own; bits above `nbits` are 0. -/
def tableWord (nbits w : Nat) : Word := BitVec.ofNat 16 (w % 2 ^ nbits)

/-- What the decoder reads from an instruction whose bits are `w`, laid out in Memory order (rule R43). -/
def decodeTableWord (nbits w : Nat) : Option Instr :=
  match decodeBytes [(tableWord nbits w).extractLsb' 8 8, (tableWord nbits w).extractLsb' 0 8] with
  | .ok (i, _) => some i
  | .error _ => none

end Sys2Proof
end

