-- ==== Sys2Proof/Config.lean ====
section
/-! DEFINITION. What is fixed for the machine (spec/00_scope.md rule R5), the Quirks record (spec/10_state.md rule R18),
the ports' types (spec/45_devices.md rule R170) and the free values: what the outside supplies to a cycle. -/

namespace Sys2Proof

/-- Number of bytes of Memory (rule R5, conflict C7). -/
def Config.memCapacity : Nat := 4096

/-- Number of general registers, V0 to VF (rule R5): the length of `State.v`, `Laws.config_numRegs`. -/
def Config.numRegs : Nat := 16

/-- Bits of a general register and of a timer (rule R5): the width of `Byte`, `Laws.config_regWidth`. -/
def Config.regWidth : Nat := 8

/-- Bits of the index register (rule R5): the width of `Word`, `Laws.config_iWidth`. -/
def Config.iWidth : Nat := 16

/-- Bits of the program counter and of a stack entry (rule R5, decision D1): the width of `Word`, `Laws.config_pcWidth`. -/
def Config.pcWidth : Nat := 16

/-- Bytes of an instruction (rule R5), by which `pc` advances. -/
abbrev Config.instrBytes : Word := 2

/-- Ticks of the external clock in a second, informative: "no rule depends on it" (rule R5), and no definition reads it. -/
def Config.timerHz : Nat := 60

/-- Maximum number of return addresses held (rule R5, conflict C7). -/
def Config.stackDepth : Nat := 16

/-- Where the host loads the program and where `pc` points after reset (rule R5). -/
def Config.programOrigin : Word := 0x200

/-- Bytes per font glyph (rule R5). -/
def Config.fontGlyphBytes : Word := 5

/-- The suggested value of the open parameter FONT_BASE (rule R5). DESIGN CHOICE where State.reset uses it (log 6); unsafe. -/
def Config.fontBaseSuggested : Word := 0x050

/-- The Quirks record, five Booleans, every value legal, constant after reset (rule R18, decision D9). -/
structure Quirks where
  memoryLeaveIUnchanged : Bool
  memoryIncrementByX : Bool
  shiftInPlace : Bool
  jumpUsesVX : Bool
  displayWait : Bool
deriving DecidableEq, Repr

/-- The Quirks value State.reset takes: all false, as the vectors of spec/95_test_vectors.md. The record is an open
argument of reset (rule R5, decision D10). DESIGN CHOICE (log 5); unsafe. -/
def Config.resetQuirks : Quirks := ⟨false, false, false, false, false⟩

/-- The input ports of one cycle (rule R170), and the answer the display gives to a draw of that cycle. -/
structure Ports where
  keys : BitVec 16
  keyEvent : Option Nibble
  rnd : Byte
  dispReady : Bool
  collision : Bool
deriving DecidableEq, Repr, Inhabited

/-- A move of a key of the reference keypad (rule R177). -/
inductive KeyMove where
  | press (k : Nibble)
  | release (k : Nibble)
deriving DecidableEq, Repr

/-- What the outside does between the cycle before and this one, and the input sample of this cycle: how many
`TimerTick`s occur (spec/60_exceptions.md rule R213), whether the display refreshes (rule R178), the key moves
(rule R177) and the port values (rule R170). -/
structure HostSample where
  ticks : Nat
  refresh : Bool
  keyMoves : List KeyMove
  ports : Ports
deriving DecidableEq, Repr, Inhabited

/-- FREE VALUE (log 2, 3): the sample of cycle number `c` when the schedule in State is empty. It has no body, so a
statement about it holds for every number of ticks, every port value and every answer of the display
(rules R170, R213, R237; spec/93_implementation_defined.md items I10 and I11). Safe. -/
opaque Config.freeSample (c : Nat) : HostSample

end Sys2Proof
end

