-- ==== Sys2Proof/Machine/State.lean ====
section
/-! DEFINITION. The machine's state as plain data (spec/10_state.md rules R10 to R25), the conditions that halt it
(spec/60_exceptions.md rule R200), and the state right after reset. -/

namespace Sys2Proof.Machine

/-- Memory: (address, byte) cells, addresses strictly rising, no cell equal to what an unlisted address reads as
(`Memory.wf` in Machine/Ops.lean). Addresses 0 to 4095 exist (spec/20_memory.md rule R40). -/
abbrev Memory := List Host.Cell

/-- The four fatal conditions; the taxonomy is closed (rule R200). -/
inductive Condition where
  | addressOutOfRange
  | stackOverflow
  | stackUnderflow
  | unknownOpcode
deriving DecidableEq, Repr

/-- The code of a condition in FAULT.code (rules R19, R200). -/
def Condition.code : Condition → BitVec 3
  | .addressOutOfRange => 1
  | .stackOverflow => 2
  | .stackUnderflow => 3
  | .unknownOpcode => 4

/-- A command to the display device (spec/45_devices.md rule R170). -/
inductive DisplayCommand where
  | clear
  | draw (x y : Byte) (rows : List Byte)
deriving DecidableEq, Repr

/-- The reference display's framebuffer: 32 rows, bit `c` of a row is the pixel of column `c`, 64 columns (rule R178). -/
abbrev FrameBuffer := Vector (BitVec 64) 32

/-- The display behind the port: a black box whose answers come from the input sample, or the reference display with
its framebuffer and its ready level (rules R170, R178). -/
inductive DisplayDevice where
  | external
  | reference (fb : FrameBuffer) (ready : Bool)
deriving DecidableEq, Repr

/-- The keypad behind the port: a black box whose values come from the input sample, or the reference keypad with the
keys held (bit `k` is key `k`) and the event it offers (rules R170, R177). -/
inductive KeypadDevice where
  | external
  | reference (held : BitVec 16) (pending : Option Nibble)
deriving DecidableEq, Repr

/-- The state. The first nine fields are the spec's tuple (rule R10). The others are the parameters and ports that the
spec describes beside it and that the fixed form of `step` has no argument for (log 2, 4, 6, 10). -/
structure State where
  /-- General registers V0 to VF (rules R11, R12). -/
  v : Vector Byte 16
  /-- Index register I (rule R13). -/
  i : Word
  /-- Program counter (rule R14). -/
  pc : Word
  /-- Return addresses in use, newest first; SP is the length (rule R15, log 9). -/
  stack : List Word
  /-- Delay timer DT (rule R16). -/
  dt : Byte
  /-- Sound timer ST (rule R16). -/
  st : Byte
  /-- Memory MEM (rule R17). -/
  mem : Memory
  /-- Quirks record Q, constant after reset (rule R18). -/
  quirks : Quirks
  /-- The fault latch FAULT: none is code 0 (rule R19). -/
  fault : Option Condition
  /-- The open parameter FONT_BASE, constant (spec/00_scope.md rule R5, log 6). -/
  fontBase : Word
  /-- The input ports' values in this cycle and the display's answer to a draw of it (rule R170, log 2). -/
  ports : Ports
  /-- The output `proceed` of the cycle (spec/40_cycle.md rule R85, log 4). -/
  proceed : Bool
  /-- The display command of the cycle, at most one (rule R170, log 4). -/
  command : Option DisplayCommand
  /-- The display device (log 10). -/
  display : DisplayDevice
  /-- The keypad device (log 10). -/
  keypad : KeypadDevice
  /-- The MODEL's own: what the outside supplies to the coming cycles; when empty the supply is free (log 2). -/
  schedule : List HostSample
  /-- The MODEL's own: the number of cycles begun, argument of the free value (log 2). -/
  cycle : Nat
deriving DecidableEq, Repr

/-- The machine halted by a fatal condition (rules R80, R86, R208). Each constructor carries the HALTED STATE: FAULT
latched, `pc` at the failing instruction, what earlier statements of the cycle wrote still written (log 1). -/
inductive Fault where
  /-- Raised by the fetch and by FX33, FX55, FX65, DXYN at an address of 4096 or more (rule R201). Safe: the hardware halts. -/
  | addressOutOfRange (halted : State)
  /-- Raised by 2NNN when the stack holds 16 entries (rule R202). Safe: the hardware halts. -/
  | stackOverflow (halted : State)
  /-- Raised by 00EE when the stack is empty (rule R203). Safe: the hardware halts. -/
  | stackUnderflow (halted : State)
  /-- Raised by decode when no row matches the word (rule R204). Safe: the hardware halts. -/
  | unknownOpcode (halted : State)
deriving DecidableEq, Repr

/-- The state a fault leaves. -/
def Fault.halted : Fault → State
  | .addressOutOfRange s | .stackOverflow s | .stackUnderflow s | .unknownOpcode s => s

/-- Why a step has no meaning. "This hardware has no refusal" (rule R80): nothing of this model raises one. -/
inductive Refusal where
  /-- Raised only by an arm of exec for an instruction without a meaning yet; there is none. Safe. -/
  | notModelled (mnemonic : String)
deriving DecidableEq, Repr

/-- The outcome of a cycle. -/
abbrev Outcome := Host.Outcome State Fault Refusal

/-- The state right after reset (rules R25, R230; log 8): registers, I and timers zero, `pc` at 0x200, stack empty, no fault.
The values the spec leaves open are the model's: Quirks (log 5), FONT_BASE (log 6), the memory image (log 7), devices
(log 10), and the model's own fields (log 15). -/
def State.reset : State where
  v := .replicate 16 0
  i := 0
  pc := Config.programOrigin
  stack := []
  dt := 0
  st := 0
  mem := []
  quirks := Config.resetQuirks
  fault := none
  fontBase := Config.fontBaseSuggested
  ports := ⟨0, none, 0, false, false⟩
  proceed := true
  command := none
  display := .external
  keypad := .external
  schedule := []
  cycle := 0

end Sys2Proof.Machine
end

