-- ==== Sys2Proof/Machine/Devices.lean ====
section
/-! DEFINITION. The reference devices behind the ports (spec/45_devices.md rules R177, R178): not part of the core, and
only in play when State says that one is connected (log 10). -/

namespace Sys2Proof.Machine

/-- The pixel of row `r`, column `c`; false outside the screen (rule R178). -/
def FrameBuffer.pixel (fb : FrameBuffer) (r c : Nat) : Bool := (fb[r]?.getD 0).getLsbD c

/-- `FB[r][c] <- FB[r][c] XOR 1` (rule R178). -/
def FrameBuffer.toggle (fb : FrameBuffer) (r c : Nat) : FrameBuffer :=
  fb.setIfInBounds r ((fb[r]?.getD 0) ^^^ (1#64 <<< c))

/-- A blank screen (rule R178). -/
def FrameBuffer.blank : FrameBuffer := .replicate 32 0

/-- One pixel of a sprite at row `py`, column `px`: clipped outside the screen; a lit sprite pixel toggles, and one that
meets a lit pixel sets the collision (rule R178). -/
def drawPixel (py px : Nat) (b : Bool) (acc : FrameBuffer × Bool) : FrameBuffer × Bool :=
  if py < 32 ∧ px < 64 ∧ b = true then (acc.1.toggle py px, acc.2 || acc.1.pixel py px) else acc

/-- One sprite row: columns 0 to 7, bit 7 leftmost (rule R178). -/
def drawRow (py x0 : Nat) (row : Byte) (acc : FrameBuffer × Bool) : FrameBuffer × Bool :=
  (List.range 8).foldl (fun a c => drawPixel py (x0 + c) (row.getLsbD (7 - c)) a) acc

/-- The sprite rows from screen row `py` down (rule R178). -/
def drawRows (py x0 : Nat) : List Byte → FrameBuffer × Bool → FrameBuffer × Bool
  | [], acc => acc
  | row :: rows, acc => drawRows (py + 1) x0 rows (drawRow py x0 row acc)

/-- `DisplayDraw(x, y, rows)` of the reference display: the new framebuffer and the collision bit; the start position
is taken modulo the screen size (rule R178). -/
def FrameBuffer.draw (fb : FrameBuffer) (x y : Byte) (rows : List Byte) : FrameBuffer × Bool :=
  drawRows (y.toNat % 32) (x.toNat % 64) rows (fb, false)

/-- `DisplayClear()` at the device: every pixel of the reference display becomes 0, the ready level stays (rule R178). -/
def DisplayDevice.clear : DisplayDevice → DisplayDevice
  | .external => .external
  | .reference _ ready => .reference .blank ready

/-- `DisplayDraw` at the device: the reference display draws, answers the collision and lowers its ready level; a black
box answers the sampled bit `c` (rules R170, R178). -/
def DisplayDevice.draw (x y : Byte) (rows : List Byte) (c : Bool) : DisplayDevice → DisplayDevice × Bool
  | .external => (.external, c)
  | .reference fb _ => (.reference (fb.draw x y rows).1 false, (fb.draw x y rows).2)

/-- A display refresh raises the reference display's ready level (rule R178). -/
def DisplayDevice.refresh : DisplayDevice → DisplayDevice
  | .external => .external
  | .reference fb _ => .reference fb true

/-- The level `in.disp_ready`: the reference display's own, else the sampled one (rules R170, R178). -/
def DisplayDevice.readyLevel (sampled : Bool) : DisplayDevice → Bool
  | .external => sampled
  | .reference _ ready => ready

/-- `in.keys`: the reference keypad's held keys, else the sampled ones (rules R170, R177). -/
def KeypadDevice.keys (sampled : BitVec 16) : KeypadDevice → BitVec 16
  | .external => sampled
  | .reference held _ => held

/-- `in.key_event`: the reference keypad's pending event, else the sampled one (rules R170, R177). -/
def KeypadDevice.event (sampled : Option Nibble) : KeypadDevice → Option Nibble
  | .external => sampled
  | .reference _ pending => pending

/-- The event kept when key `k` is released while `pending` waits: the lowest number (rule R177). -/
def keepLowest (k : Nibble) : Option Nibble → Nibble
  | none => k
  | some p => if p.toNat < k.toNat then p else k

/-- A key move at the reference keypad: a press holds the key, the release of a HELD key makes an event (rule R177;
log 11 for the release of a key that is not held). -/
def KeypadDevice.move : KeypadDevice → KeyMove → KeypadDevice
  | .external, _ => .external
  | .reference held pending, .press k => .reference (held ||| (1#16 <<< k.toNat)) pending
  | .reference held pending, .release k =>
    if held.getLsbD k.toNat then .reference (held &&& ~~~(1#16 <<< k.toNat)) (some (keepLowest k pending))
    else .reference held pending

/-- A cycle whose instruction is FX0A consumes the pending event (rule R177). -/
def KeypadDevice.consume : KeypadDevice → KeypadDevice
  | .external => .external
  | .reference held _ => .reference held none

end Sys2Proof.Machine
end

