-- ==== Sys2Proof/Machine/Ops.lean ====
section
/-! DEFINITION. The named operations over State: memory (spec/20_memory.md), registers and stack (spec/10_state.md), the
program counter (spec/40_cycle.md rule R84), ports (spec/45_devices.md rule R170), timers (spec/60_exceptions.md rule
R213), taking a fatal condition (rule R208), and the phases of a cycle before Execute (rules R80 to R82). -/

namespace Sys2Proof.Machine

/-! ### Memory -/

/-- The hexadecimal font, glyphs 0 to 7 (spec/93_implementation_defined.md item G12). -/
def fontLow : List Byte :=
  [0xF0, 0x90, 0x90, 0x90, 0xF0] ++ [0x20, 0x60, 0x20, 0x20, 0x70] ++ [0xF0, 0x10, 0xF0, 0x80, 0xF0]
    ++ [0xF0, 0x10, 0xF0, 0x10, 0xF0] ++ [0x90, 0x90, 0xF0, 0x10, 0x10] ++ [0xF0, 0x80, 0xF0, 0x10, 0xF0]
    ++ [0xF0, 0x80, 0xF0, 0x90, 0xF0] ++ [0xF0, 0x10, 0x20, 0x40, 0x40]

/-- The hexadecimal font, glyphs 8 to F (item G12). -/
def fontHigh : List Byte :=
  [0xF0, 0x90, 0xF0, 0x90, 0xF0] ++ [0xF0, 0x90, 0xF0, 0x10, 0xF0] ++ [0xF0, 0x90, 0xF0, 0x90, 0x90]
    ++ [0xE0, 0x90, 0xE0, 0x90, 0xE0] ++ [0xF0, 0x80, 0x80, 0x80, 0xF0] ++ [0xE0, 0x90, 0x90, 0x90, 0xE0]
    ++ [0xF0, 0x80, 0xF0, 0x80, 0xF0] ++ [0xF0, 0x80, 0xF0, 0x80, 0x80]

/-- The 80 bytes of the hexadecimal font (item G12). -/
def fontBytes : List Byte := fontLow ++ fontHigh

/-- What an unlisted address reads as: the suggested reset image of spec/00_scope.md rule R5, all zero with the font at
the suggested FONT_BASE. DESIGN CHOICE, MEM_INIT being open (log 7); unsafe. -/
def unlistedByte (a : Nat) : Byte :=
  if Config.fontBaseSuggested.toNat ≤ a then fontBytes.getD (a - Config.fontBaseSuggested.toNat) 0 else 0

/-- The byte at an address, with no bounds check. -/
def Memory.get : Memory → Nat → Byte
  | [], a => unlistedByte a
  | c :: m, a => if c.1 = a then c.2 else Memory.get m a

/-- Put a cell in its place in a list of rising addresses. -/
def Memory.insert : Memory → Nat → Byte → Memory
  | [], a, b => [(a, b)]
  | c :: m, a, b =>
    if a < c.1 then (a, b) :: c :: m else if a = c.1 then (a, b) :: m else c :: Memory.insert m a b

/-- The memory with byte `b` at address `a`, in canonical form: a byte equal to the unlisted one is not listed. -/
def Memory.set (m : Memory) (a : Nat) (b : Byte) : Memory :=
  if b = unlistedByte a then m.filter (fun c => c.1 != a) else m.insert a b

/-- The canonical form from address `lo` up: addresses strictly rising and below the capacity, no cell redundant. -/
def Memory.wfFrom : Nat → Memory → Bool
  | _, [] => true
  | lo, c :: m =>
    decide (lo ≤ c.1) && decide (c.1 < Config.memCapacity) && c.2 != unlistedByte c.1 && Memory.wfFrom (c.1 + 1) m

/-- The canonical form of a memory. -/
def Memory.wf (m : Memory) : Bool := Memory.wfFrom 0 m

/-- The memory that holds the 4096-byte image `img` (rule R25, MEM_INIT of rule R5). -/
def Memory.ofImage (img : Vector Byte 4096) : Memory :=
  (List.range 4096).filterMap fun a =>
    if img.toList.getD a 0 = unlistedByte a then none else some (a, img.toList.getD a 0)

/-- The byte at address `a` of a state. -/
def State.byteAt (s : State) (a : Nat) : Byte := s.mem.get a

/-- `MemRead(addr, 1)`: AddressOutOfRange at the capacity or above, the address never reduced (rules R41, R49). -/
def memRead (s : State) (a : Nat) : Except Condition Byte :=
  if Config.memCapacity ≤ a then .error .addressOutOfRange else .ok (s.byteAt a)

/-- `MemWrite(addr, 1, v)`: on failure nothing changes, else one byte does (rule R42). -/
def memWrite (s : State) (a : Nat) (b : Byte) : Except Condition State :=
  if Config.memCapacity ≤ a then .error .addressOutOfRange else .ok { s with mem := s.mem.set a b }

/-! ### Registers, program counter, stack -/

/-- `V[r]` (rule R11). -/
def State.getV (s : State) (r : Reg) : Byte := s.v[r.toNat]

/-- `V[r] <- b` (rule R11). -/
def State.setV (s : State) (r : Reg) (b : Byte) : State := { s with v := s.v.set r.toNat b }

/-- `I <- a` (rule R13). -/
def State.setI (s : State) (a : Word) : State := { s with i := a }

/-- `pc <- a` (rule R14): used as it is, odd or even, in Memory or not (spec/42_control.md rule R129). -/
def State.setPc (s : State) (a : Word) : State := { s with pc := a }

/-- The sequential end of an instruction, `pc <- pc + 2`, past its own bytes (rule R84). -/
def State.advance (s : State) : State := s.setPc (s.pc + Config.instrBytes)

/-- The end of a skip: `pc + 4` when the condition holds, past two instructions, else `pc + 2` (rule R128). -/
def State.skipIf (s : State) (c : Bool) : State :=
  s.setPc (if c then s.pc + 2 * Config.instrBytes else s.pc + Config.instrBytes)

/-- SP: the number of return addresses held (rule R15). -/
def State.sp (s : State) : Nat := s.stack.length

/-- `STACK[k]` for `k < SP`, counted from the oldest (rule R15); none at SP and above (log 9). -/
def State.stackEntry (s : State) (k : Nat) : Option Word := s.stack.reverse[k]?

/-- `Push(v)`: StackOverflow at the configured depth, before anything is written (rule R15). -/
def push (s : State) (v : Word) : Except Condition State :=
  if Config.stackDepth ≤ s.sp then .error .stackOverflow else .ok { s with stack := v :: s.stack }

/-- `Pop()`: StackUnderflow when empty, else the newest entry and the state without it (rule R15). -/
def pop (s : State) : Except Condition (Word × State) :=
  match s.stack with
  | [] => .error .stackUnderflow
  | v :: rest => .ok (v, { s with stack := rest })

/-! ### Fatal conditions -/

/-- FAULT.code (rule R19). -/
def State.faultCode (s : State) : BitVec 3 :=
  match s.fault with
  | none => 0
  | some c => c.code

/-- What the host's outcome calls a halted machine. -/
def Condition.toFault : Condition → State → Fault
  | .addressOutOfRange, s => .addressOutOfRange s
  | .stackOverflow, s => .stackOverflow s
  | .stackUnderflow, s => .stackUnderflow s
  | .unknownOpcode, s => .unknownOpcode s

/-- `FAULT.code <- code(E)` and `proceed = false`, nothing else: no register is saved, `pc` keeps the failing
instruction's address, control goes nowhere (rules R205, R208). -/
def State.latch (s : State) (c : Condition) : State := { s with fault := some c, proceed := false }

/-- `raise E` (rule R208): the cycle ends with the condition latched in the state its earlier statements left. The only
way back is the host's Reset (rule R209; `State.hostReset`). -/
def raise (c : Condition) (s : State) : Outcome := .fault (c.toFault (s.latch c))

/-- What `Step` answers on a machine that is halted already: the latched code, no state change, `proceed` false and no
display command (rule R86). -/
def stayHalted (c : Condition) (s : State) : Outcome :=
  .fault (c.toFault { s with proceed := false, command := none })

/-- A completed access goes on with its state, a failed one raises its condition in the state `s` it found. -/
def orRaise {α : Type} (s : State) (r : Except Condition α) (k : α → Outcome) : Outcome :=
  match r with
  | .ok a => k a
  | .error c => raise c s

/-! ### Block accesses (rules R45, R46) -/

/-- Store bytes at ascending addresses from `a`, each one checked as it is written; the bytes before a failing one stay
written. The second component is the condition that stopped it. -/
def storeBytes (s : State) (a : Nat) : List Byte → State × Option Condition
  | [] => (s, none)
  | b :: bs =>
    match memWrite s a b with
    | .ok t => storeBytes t (a + 1) bs
    | .error c => (s, some c)

/-- Load registers, in the order listed, from ascending addresses from `a`; the registers before a failing access keep
what was loaded. -/
def loadRegs (s : State) (a : Nat) : List Reg → State × Option Condition
  | [] => (s, none)
  | r :: rs =>
    match memRead s a with
    | .ok b => loadRegs (s.setV r b) (a + 1) rs
    | .error c => (s, some c)

/-- Read `n` bytes at ascending addresses from `a`; nothing is changed. -/
def readBytes (s : State) (a : Nat) : Nat → Except Condition (List Byte)
  | 0 => .ok []
  | n + 1 =>
    match memRead s a with
    | .error c => .error c
    | .ok b =>
      match readBytes s (a + 1) n with
      | .error c => .error c
      | .ok bs => .ok (b :: bs)

/-- The end of a block access: go on with the state, or raise the condition in the state the block left (rule R46). -/
def afterBlock (r : State × Option Condition) (k : State → State) : Outcome :=
  match r.2 with
  | none => .next (k r.1)
  | some c => raise c r.1

/-- `IndexAfterBlock(X)`: I unchanged, or advanced by X or by X + 1, modulo 2^16 (spec/43_index_memory.md rule R146). -/
def State.indexAfterBlock (s : State) (x : Reg) : State :=
  if s.quirks.memoryLeaveIUnchanged then s
  else if s.quirks.memoryIncrementByX then s.setI (s.i + x.setWidth 16)
  else s.setI (s.i + x.setWidth 16 + 1)

/-! ### Ports and devices (rule R170) -/

/-- A wait cycle: `proceed <- false` and nothing else; `pc` stays (rule R85). -/
def State.waitCycle (s : State) : State := { s with proceed := false }

/-- `DisplayClear()` (rules R170, R178). -/
def State.displayClear (s : State) : State := { s with command := some .clear, display := s.display.clear }

/-- The display's answer to `DisplayDraw(x, y, rows)` in this cycle, the collision bit (rules R170, R178). -/
def State.collisionAnswer (s : State) (x y : Byte) (rows : List Byte) : Bool :=
  (s.display.draw x y rows s.ports.collision).2

/-- `DisplayDraw(x, y, rows)`: the command is sent and the device takes it (rules R170, R178). -/
def State.displayDraw (s : State) (x y : Byte) (rows : List Byte) : State :=
  { s with
    command := some (.draw x y rows)
    display := (s.display.draw x y rows s.ports.collision).1 }

/-- The keypad's event is consumed by an FX0A cycle (rule R177). -/
def State.consumeKeyEvent (s : State) : State := { s with keypad := s.keypad.consume }

/-- `sound_active`: the level output that follows ST (rule R214). -/
def State.soundActive (s : State) : Bool := s.st != 0

/-! ### Timers and the start of a cycle -/

/-- One timer at one tick: down by one, stopping at zero (rule R213). -/
def tickByte (d : Byte) : Byte := if d = 0 then 0 else d - 1

/-- One timer after `n` ticks. -/
def tickTimes : Nat → Byte → Byte
  | 0, d => d
  | n + 1, d => tickTimes n (tickByte d)

/-- `DT <- b` (rule R16). -/
def State.setDt (s : State) (b : Byte) : State := { s with dt := b }

/-- `ST <- b` (rule R16). -/
def State.setSt (s : State) (b : Byte) : State := { s with st := b }

/-- `TimerTick()`: both timers at once (rule R213). -/
def State.timerTick (s : State) : State := { s with dt := tickByte s.dt, st := tickByte s.st }

/-- The sample of the coming cycle: the head of the schedule, a free value when it is empty (log 2). -/
def State.nextSample (s : State) : HostSample :=
  match s.schedule with
  | [] => Config.freeSample s.cycle
  | h :: _ => h

/-- The port values of a cycle: a connected reference device's own, else the sampled ones (rules R170, R177, R178). -/
def samplePorts (display : DisplayDevice) (keypad : KeypadDevice) (p : Ports) : Ports :=
  { p with
    keys := keypad.keys p.keys
    keyEvent := keypad.event p.keyEvent
    dispReady := display.readyLevel p.dispReady }

/-- What happens between the cycle before and this one, then the sampling of the ports: the ticks, the display refresh
and the key moves of the sample; `proceed <- true` and no command yet (rules R80, R87, R213). -/
def State.beginCycle (s : State) : State :=
  let h := s.nextSample
  let display := if h.refresh then s.display.refresh else s.display
  let keypad := h.keyMoves.foldl KeypadDevice.move s.keypad
  { s with
    dt := tickTimes h.ticks s.dt
    st := tickTimes h.ticks s.st
    ports := samplePorts display keypad h.ports
    proceed := true
    command := none
    display := display
    keypad := keypad
    schedule := s.schedule.tail
    cycle := s.cycle + 1 }

/-- Fetch: `MemRead(pc, 2)`, the byte at `pc` high, both reads checked in that order, nothing written (rules R43, R81). -/
def fetch (s : State) : Except Condition Word :=
  match memRead s s.pc.toNat with
  | .error c => .error c
  | .ok hi =>
    match memRead s (s.pc.toNat + 1) with
    | .error c => .error c
    | .ok lo => .ok (wordOfBytes hi lo)

/-- A byte placed in Memory where the address exists; used to place an instruction. -/
def State.placeByte (s : State) (a : Nat) (b : Byte) : State :=
  match memWrite s a b with
  | .ok t => t
  | .error _ => s

/-- A word placed where `fetch` reads it: high byte at `pc`, low byte at `pc + 1` (rule R43). -/
def State.placeWordAtPc (s : State) (w : Word) : State :=
  (s.placeByte s.pc.toNat (w.extractLsb' 8 8)).placeByte (s.pc.toNat + 1) (w.extractLsb' 0 8)

end Sys2Proof.Machine
end

