-- ==== Sys2Proof/Machine/Flags.lean ====
section
/-! DEFINITION. The flag results written to VF (spec/10_state.md rule R12) and the order of the two writes
(spec/41_alu.md rule R112). -/

namespace Sys2Proof.Machine

/-- The register that doubles as the flag result (rule R12). -/
def flagReg : Reg := 0xF

/-- 8XY4: 1 if the exact sum exceeds 255 (rule R106). -/
def carryFlag (a b : Byte) : Byte := flagByte (decide (255 < a.toNat + b.toNat))

/-- 8XY5 and 8XY7: 1 if minuend `a` >= subtrahend `b`, no borrow (rules R107, R109, decision D15). -/
def noBorrowFlag (a b : Byte) : Byte := flagByte (decide (b.toNat ≤ a.toNat))

/-- 8XY6: bit 0 of the operand before the shift (rule R108). -/
def shrFlag (t : Byte) : Byte := flagByte (t.getLsbD 0)

/-- 8XYE: bit 7 of the operand before the shift (rule R110). -/
def shlFlag (t : Byte) : Byte := flagByte (t.getLsbD 7)

/-- The result to `V[X]` first, the flag to VF second, so with X = F the flag remains (rule R112, decision D14). -/
def State.setVThenFlag (s : State) (x : Reg) (result flag : Byte) : State := (s.setV x result).setV flagReg flag

end Sys2Proof.Machine
end

