-- ==== Sys2Proof/Machine/Operands.lean ====
section
/-! DEFINITION. The operand forms beyond a plain register or immediate: the operands a quirk selects
(spec/10_state.md rule R18), low-nibble operands (decisions D19, D22) and effective addresses (spec/20_memory.md rule
R49). -/

namespace Sys2Proof.Machine

/-- The shifted operand of 8XY6 and 8XYE: `V[X]` when ShiftInPlace, else `V[Y]` (spec/41_alu.md rule R108). -/
def State.shiftOperand (s : State) (x y : Reg) : Byte :=
  if s.quirks.shiftInPlace then s.getV x else s.getV y

/-- The register field X of BNNN: the top nibble of NNN itself (spec/42_control.md rule R123). -/
def offsetReg (nnn : Addr12) : Reg := nnn.extractLsb' 8 4

/-- The offset of BNNN: `V[X]` when JumpUsesVX, else `V[0]` (rule R123). -/
def State.jumpOffset (s : State) (nnn : Addr12) : Byte :=
  if s.quirks.jumpUsesVX then s.getV (offsetReg nnn) else s.getV 0

/-- The low nibble of a register: a key number or a font digit (spec/45_devices.md rule R173, spec/43_index_memory.md
rule R142). -/
def State.lowNibble (s : State) (x : Reg) : Nibble := (s.getV x).extractLsb' 0 4

/-- The address of the font glyph for a digit, modulo 2^16 (rule R142). -/
def State.glyphAddress (s : State) (d : Nibble) : Word := s.fontBase + Config.fontGlyphBytes * d.setWidth 16

/-- The effective address of byte `k` of a block access: the exact integer I + k, never wrapped (rules R49, R147). -/
def State.effAddr (s : State) (k : Nat) : Nat := s.i.toNat + k

/-- The registers V0 to VX, in ascending order (rules R144, R145). -/
def regsUpTo (x : Reg) : List Reg := (List.range (x.toNat + 1)).map (BitVec.ofNat 4)

/-- The bytes FX55 stores: V0 to VX in ascending order (rule R144). -/
def State.blockBytes (s : State) (x : Reg) : List Byte := (regsUpTo x).map s.getV

/-- The decimal digits FX33 stores: hundreds, tens, ones (rule R143). -/
def bcdDigits (v : Byte) : List Byte :=
  [.ofNat 8 (v.toNat / 100), .ofNat 8 (v.toNat / 10 % 10), .ofNat 8 (v.toNat % 10)]

/-- Whether key `V[X][3:0]` is down in this cycle's sample (rules R173, R174). -/
def State.keyDown (s : State) (x : Reg) : Bool := s.ports.keys.getLsbD (s.lowNibble x).toNat

end Sys2Proof.Machine
end

