-- ==== Sys2Proof/Machine/Alu.lean ====
section
/-! DEFINITION. Register load, arithmetic and logic (spec/41_alu.md): 6XNN, 7XNN, 8XY0 to 8XY7, 8XYE. -/

namespace Sys2Proof.Machine

/-- 6XNN `LD Vx, NN` (rule R100). -/
def execLdImm (x : Reg) (nn : Byte) (s : State) : Outcome := .next (s.setV x nn).advance

/-- 7XNN `ADD Vx, NN`: modulo 256, no flag (rule R101). -/
def execAddImm (x : Reg) (nn : Byte) (s : State) : Outcome :=
  .next (s.setV x (.ofNat 8 ((s.getV x).toNat + nn.toNat))).advance

/-- 8XY0 `LD Vx, Vy` (rule R102). -/
def execLdReg (x y : Reg) (s : State) : Outcome := .next (s.setV x (s.getV y)).advance

/-- 8XY1 `OR Vx, Vy`: VF is no flag here (rule R103). -/
def execOrReg (x y : Reg) (s : State) : Outcome := .next (s.setV x (s.getV x ||| s.getV y)).advance

/-- 8XY2 `AND Vx, Vy`: VF is no flag here (rule R104). -/
def execAndReg (x y : Reg) (s : State) : Outcome := .next (s.setV x (s.getV x &&& s.getV y)).advance

/-- 8XY3 `XOR Vx, Vy`: VF is no flag here (rule R105). -/
def execXorReg (x y : Reg) (s : State) : Outcome := .next (s.setV x (s.getV x ^^^ s.getV y)).advance

/-- 8XY4 `ADD Vx, Vy`: the low 8 bits of the exact sum, VF the carry (rule R106). -/
def execAddReg (x y : Reg) (s : State) : Outcome :=
  let a := s.getV x
  let b := s.getV y
  .next (s.setVThenFlag x (.ofNat 8 (a.toNat + b.toNat)) (carryFlag a b)).advance

/-- 8XY5 `SUB Vx, Vy`: `V[X] - V[Y]` modulo 256, VF no borrow (rule R107). -/
def execSubReg (x y : Reg) (s : State) : Outcome :=
  let a := s.getV x
  let b := s.getV y
  .next (s.setVThenFlag x (a - b) (noBorrowFlag a b)).advance

/-- 8XY6 `SHR Vx (, Vy)`: logical shift right by one, VF the bit shifted out (rule R108). -/
def execShr (x y : Reg) (s : State) : Outcome :=
  let t := s.shiftOperand x y
  .next (s.setVThenFlag x (t >>> 1) (shrFlag t)).advance

/-- 8XY7 `SUBN Vx, Vy`: `V[Y] - V[X]` modulo 256, VF no borrow (rule R109). -/
def execSubnReg (x y : Reg) (s : State) : Outcome :=
  let a := s.getV x
  let b := s.getV y
  .next (s.setVThenFlag x (b - a) (noBorrowFlag b a)).advance

/-- 8XYE `SHL Vx (, Vy)`: logical shift left by one, VF the bit shifted out (rule R110). -/
def execShl (x y : Reg) (s : State) : Outcome :=
  let t := s.shiftOperand x y
  .next (s.setVThenFlag x (t <<< 1) (shlFlag t)).advance

end Sys2Proof.Machine
end

