-- ==== Sys2Proof/Machine/Control.lean ====
section
/-! DEFINITION. Control transfer (spec/42_control.md): jumps, call, return, skips on registers. -/

namespace Sys2Proof.Machine

/-- 1NNN `JP NNN`: a redirect even to its own address (rules R84, R120). -/
def execJp (nnn : Addr12) (s : State) : Outcome := .next (s.setPc (nnn.setWidth 16))

/-- 2NNN `CALL NNN`: push `pc + 2`, then go; StackOverflow before any write (rule R121). -/
def execCall (nnn : Addr12) (s : State) : Outcome :=
  orRaise s (push s (s.pc + Config.instrBytes)) fun t => .next (t.setPc (nnn.setWidth 16))

/-- 00EE `RET`: `pc` becomes the popped value as it is; StackUnderflow when empty (rule R122). -/
def execRet (s : State) : Outcome := orRaise s (pop s) fun r => .next (r.2.setPc r.1)

/-- BNNN `JP V0, NNN`: NNN plus the offset register, in 16 bits, not reduced modulo 4096 (rule R123). -/
def execJpV0 (nnn : Addr12) (s : State) : Outcome :=
  .next (s.setPc (nnn.setWidth 16 + (s.jumpOffset nnn).setWidth 16))

/-- 3XNN `SE Vx, NN` (rule R124). -/
def execSeImm (x : Reg) (nn : Byte) (s : State) : Outcome := .next (s.skipIf (s.getV x == nn))

/-- 4XNN `SNE Vx, NN` (rule R125). -/
def execSneImm (x : Reg) (nn : Byte) (s : State) : Outcome := .next (s.skipIf (s.getV x != nn))

/-- 5XY0 `SE Vx, Vy` (rule R126). -/
def execSeReg (x y : Reg) (s : State) : Outcome := .next (s.skipIf (s.getV x == s.getV y))

/-- 9XY0 `SNE Vx, Vy` (rule R127). -/
def execSneReg (x y : Reg) (s : State) : Outcome := .next (s.skipIf (s.getV x != s.getV y))

end Sys2Proof.Machine
end

