-- ==== Sys2Proof/Machine/DeviceInstr.lean ====
section
/-! DEFINITION. The instructions that use an external device (spec/45_devices.md): 00E0, DXYN, EX9E, EXA1, FX0A, CXNN.
They read the cycle's sample in `State.ports` and send their command through the display port (rule R170). -/

namespace Sys2Proof.Machine

/-- 00E0 `CLS`: one DisplayClear; never waits (rule R171). -/
def execCls (s : State) : Outcome := .next s.displayClear.advance

/-- DXYN is held in this cycle: the DisplayWait quirk is on and the display is not ready (rule R172, decision D13). -/
def State.drawHeld (s : State) : Bool := s.quirks.displayWait && !s.ports.dispReady

/-- DXYN once its rows are read: one DisplayDraw with the register values as they are, then VF the collision bit
(rule R172). -/
def State.drawSprite (s : State) (x y : Reg) (rows : List Byte) : State :=
  ((s.displayDraw (s.getV x) (s.getV y) rows).setV flagReg
    (flagByte (s.collisionAnswer (s.getV x) (s.getV y) rows))).advance

/-- DXYN `DRW Vx, Vy, N`: a wait cycle when held; else all N rows are read before anything is sent or written
(rule R172, decision D24). -/
def execDrw (x y : Reg) (n : Nibble) (s : State) : Outcome :=
  if s.drawHeld then .next s.waitCycle
  else orRaise s (readBytes s (s.effAddr 0) n.toNat) fun rows => .next (s.drawSprite x y rows)

/-- EX9E `SKP Vx` (rule R173). -/
def execSkp (x : Reg) (s : State) : Outcome := .next (s.skipIf (s.keyDown x))

/-- EXA1 `SKNP Vx` (rule R174). -/
def execSknp (x : Reg) (s : State) : Outcome := .next (s.skipIf (!s.keyDown x))

/-- FX0A `LD Vx, K`: a wait cycle when no event is offered, else the key number and the event is consumed
(rules R175, R177). -/
def execLdVxK (x : Reg) (s : State) : Outcome :=
  .next (match s.ports.keyEvent with
    | none => s.waitCycle
    | some k => (s.consumeKeyEvent.setV x (k.setWidth 8)).advance)

/-- CXNN `RND Vx, NN` (rule R176). -/
def execRnd (x : Reg) (nn : Byte) (s : State) : Outcome := .next (s.setV x (s.ports.rnd &&& nn)).advance

end Sys2Proof.Machine
end

