-- ==== Sys2Proof/Machine/IndexMemory.lean ====
section
/-! DEFINITION. The index register and memory load and store (spec/43_index_memory.md): ANNN, FX1E, FX29, FX33, FX55,
FX65. -/

namespace Sys2Proof.Machine

/-- ANNN `LD I, NNN` (rule R140). -/
def execLdI (nnn : Addr12) (s : State) : Outcome := .next (s.setI (nnn.setWidth 16)).advance

/-- FX1E `ADD I, Vx`: modulo 2^16, no flag (rule R141). -/
def execAddI (x : Reg) (s : State) : Outcome := .next (s.setI (s.i + (s.getV x).setWidth 16)).advance

/-- FX29 `LD F, Vx`: the glyph of the low nibble; no memory access (rule R142). -/
def execLdF (x : Reg) (s : State) : Outcome := .next (s.setI (s.glyphAddress (s.lowNibble x))).advance

/-- FX33 `LD B, Vx`: three digits at I, I + 1, I + 2, I unchanged (rule R143). -/
def execLdB (x : Reg) (s : State) : Outcome :=
  afterBlock (storeBytes s (s.effAddr 0) (bcdDigits (s.getV x))) fun t => t.advance

/-- FX55 `LD [I], Vx`: V0 to VX at I upward, then the index policy (rules R144, R146). -/
def execStRegs (x : Reg) (s : State) : Outcome :=
  afterBlock (storeBytes s (s.effAddr 0) (s.blockBytes x)) fun t => (t.indexAfterBlock x).advance

/-- FX65 `LD Vx, [I]`: V0 to VX from I upward, then the index policy (rules R145, R146). -/
def execLdRegs (x : Reg) (s : State) : Outcome :=
  afterBlock (loadRegs s (s.effAddr 0) (regsUpTo x)) fun t => (t.indexAfterBlock x).advance

end Sys2Proof.Machine
end

