-- ==== Sys2Proof/Machine/Timers.lean ====
section
/-! DEFINITION. The timer instructions (spec/44_timers.md): FX07, FX15, FX18. -/

namespace Sys2Proof.Machine

/-- FX07 `LD Vx, DT` (rule R160). -/
def execLdVxDt (x : Reg) (s : State) : Outcome := .next (s.setV x s.dt).advance

/-- FX15 `LD DT, Vx` (rule R161). -/
def execLdDtVx (x : Reg) (s : State) : Outcome := .next (s.setDt (s.getV x)).advance

/-- FX18 `LD ST, Vx` (rule R162). -/
def execLdStVx (x : Reg) (s : State) : Outcome := .next (s.setSt (s.getV x)).advance

end Sys2Proof.Machine
end

