-- ==== Sys2Proof/Machine/Step.lean ====
section
/-! DEFINITION. One cycle (spec/40_cycle.md rule R80), and the placing of an instruction where the next cycle fetches it. -/

namespace Sys2Proof.Machine

/-- `Step`: a halted machine does nothing (rule R86); else the outside's part and the sampling, then Fetch, Decode and
Execute, a failure of the first two raising its condition (rules R81, R82, R88). -/
def step (s : State) : Host.Outcome State Fault Refusal :=
  match s.fault with
  | some c => stayHalted c s
  | none =>
    orRaise s.beginCycle (fetch s.beginCycle) fun raw =>
      match decodeWord raw with
      | some i => exec i s.beginCycle
      | none => raise .unknownOpcode s.beginCycle

/-- The state with an instruction stored at `pc`, as the host's load of a program leaves it (spec/70_reset_and_hazards.md
rule R232, log 13). The next step of a machine that is not halted fetches and runs it. -/
def State.withFetchWord (s : State) (nbits w : Nat) : State := s.placeWordAtPc (tableWord nbits w)

end Sys2Proof.Machine
end

