-- ==== Sys2Proof/Laws/Devices.lean ====
section
/-! SUPPORT. The laws of the reference devices (spec/45_devices.md rules R177, R178): each operation on each device, the
pixels of a framebuffer, and what a list of key moves can leave. -/

namespace Sys2Proof.Machine

/-! ### Each operation on each display -/

@[simp] theorem DisplayDevice.clear_external : DisplayDevice.clear .external = .external := rfl
@[simp] theorem DisplayDevice.clear_reference (fb : FrameBuffer) (ready : Bool) :
    DisplayDevice.clear (.reference fb ready) = .reference .blank ready := rfl
@[simp] theorem DisplayDevice.draw_external (x y : Byte) (rows : List Byte) (c : Bool) :
    DisplayDevice.draw x y rows c .external = (.external, c) := rfl
@[simp] theorem DisplayDevice.draw_reference (x y : Byte) (rows : List Byte) (c : Bool) (fb : FrameBuffer) (ready : Bool) :
    DisplayDevice.draw x y rows c (.reference fb ready)
      = (.reference (fb.draw x y rows).1 false, (fb.draw x y rows).2) := rfl
@[simp] theorem DisplayDevice.refresh_external : DisplayDevice.refresh .external = .external := rfl
@[simp] theorem DisplayDevice.refresh_reference (fb : FrameBuffer) (ready : Bool) :
    DisplayDevice.refresh (.reference fb ready) = .reference fb true := rfl
@[simp] theorem DisplayDevice.readyLevel_external (r : Bool) : DisplayDevice.readyLevel r .external = r := rfl
@[simp] theorem DisplayDevice.readyLevel_reference (r : Bool) (fb : FrameBuffer) (ready : Bool) :
    DisplayDevice.readyLevel r (.reference fb ready) = ready := rfl

/-! ### Each operation on each keypad -/

@[simp] theorem KeypadDevice.keys_external (k : BitVec 16) : KeypadDevice.keys k .external = k := rfl
@[simp] theorem KeypadDevice.keys_reference (k held : BitVec 16) (pending : Option Nibble) :
    KeypadDevice.keys k (.reference held pending) = held := rfl
@[simp] theorem KeypadDevice.event_external (e : Option Nibble) : KeypadDevice.event e .external = e := rfl
@[simp] theorem KeypadDevice.event_reference (e : Option Nibble) (held : BitVec 16) (pending : Option Nibble) :
    KeypadDevice.event e (.reference held pending) = pending := rfl
@[simp] theorem KeypadDevice.consume_external : KeypadDevice.consume .external = .external := rfl
@[simp] theorem KeypadDevice.consume_reference (held : BitVec 16) (pending : Option Nibble) :
    KeypadDevice.consume (.reference held pending) = .reference held none := rfl
@[simp] theorem KeypadDevice.move_external (m : KeyMove) : KeypadDevice.move .external m = .external := rfl

/-- A move leaves a reference keypad a reference keypad. -/
theorem KeypadDevice.move_reference (held : BitVec 16) (pending : Option Nibble) (m : KeyMove) :
    ∃ held' pending', KeypadDevice.move (.reference held pending) m = .reference held' pending' := by
  cases m with
  | press k => exact ⟨_, _, rfl⟩
  | release k => simp only [KeypadDevice.move]; split <;> exact ⟨_, _, rfl⟩

/-- Moves leave a black-box keypad as it is. -/
@[simp] theorem KeypadDevice.moves_external (ms : List KeyMove) : ms.foldl KeypadDevice.move .external = .external := by
  induction ms with
  | nil => rfl
  | cons m ms ih => exact ih

/-- Moves leave a reference keypad a reference keypad. -/
theorem KeypadDevice.moves_reference (ms : List KeyMove) (held : BitVec 16) (pending : Option Nibble) :
    ∃ held' pending', ms.foldl KeypadDevice.move (.reference held pending) = .reference held' pending' := by
  induction ms generalizing held pending with
  | nil => exact ⟨held, pending, rfl⟩
  | cons m ms ih =>
    obtain ⟨h, p, hm⟩ := KeypadDevice.move_reference held pending m
    rw [List.foldl_cons, hm]
    exact ih h p

/-! ### Pixels -/

@[simp] theorem FrameBuffer.pixel_blank (r c : Nat) : FrameBuffer.blank.pixel r c = false := by
  simp only [FrameBuffer.pixel, FrameBuffer.blank, Vector.getElem?_replicate]
  split <;> simp

/-- A pixel outside the screen reads as false. -/
theorem FrameBuffer.pixel_outside (fb : FrameBuffer) {r c : Nat} (h : 32 ≤ r ∨ 64 ≤ c) : fb.pixel r c = false := by
  rcases h with h | h
  · simp [FrameBuffer.pixel, Vector.getElem?_eq_none h]
  · exact BitVec.getLsbD_of_ge _ _ h

/-- Toggling a pixel of the screen turns that one and leaves the others. -/
theorem FrameBuffer.pixel_toggle (fb : FrameBuffer) {r c : Nat} (hr : r < 32) (hc : c < 64) (r' c' : Nat) :
    (fb.toggle r c).pixel r' c' = (fb.pixel r' c' ^^ decide (r' = r ∧ c' = c)) := by
  unfold FrameBuffer.toggle FrameBuffer.pixel
  rw [Vector.getElem?_setIfInBounds]
  by_cases h : r = r'
  · subst h
    by_cases h' : c' = c
    · subst h'; simp [hr, hc]
    · rcases Nat.lt_or_gt_of_ne h' with hlt | hgt
      · simp [hr, h', BitVec.getLsbD_shiftLeft, hlt]
      · simp [hr, h', BitVec.getLsbD_shiftLeft, show ¬ c' < c by omega, show c' - c ≠ 0 by omega]
  · simp [h, Ne.symm h]

/-- Framebuffers that agree on every pixel are equal. -/
theorem FrameBuffer.ext_pixel {fb gb : FrameBuffer} (h : ∀ r c, fb.pixel r c = gb.pixel r c) : fb = gb := by
  refine Vector.ext fun r hr => BitVec.eq_of_getLsbD_eq fun c _ => ?_
  simpa [FrameBuffer.pixel, hr] using h r c

end Sys2Proof.Machine
end

