-- ==== Sys2Proof/Laws/Memory.lean ====
section
/-! SUPPORT. The laws of memory: a byte written is the byte read, every other byte stays, and every operation keeps the
canonical form (spec/20_memory.md rules R40 to R42). -/

namespace Sys2Proof.Machine

/-! ### Read after write -/

theorem Memory.get_insert (m : Memory) (a k : Nat) (b : Byte) :
    (m.insert a b).get k = if k = a then b else m.get k := by
  induction m with
  | nil => simp [Memory.insert, Memory.get, eq_comm]
  | cons c m ih =>
    simp only [Memory.insert]
    split
    · simp [Memory.get, eq_comm]
    · split
      · rename_i h; subst h
        by_cases hk : c.1 = k
        · simp [Memory.get, hk]
        · simp [Memory.get, hk, Ne.symm hk]
      · by_cases hk : c.1 = k <;> simp [Memory.get, hk, ih]
        intro h; omega

theorem Memory.get_filter_ne (m : Memory) (a k : Nat) :
    Memory.get (m.filter fun c => c.1 != a) k = if k = a then unlistedByte a else m.get k := by
  induction m with
  | nil => simp only [List.filter_nil, Memory.get]; split <;> simp_all
  | cons c m ih =>
    by_cases hc : c.1 = a
    · have hf : List.filter (fun c : Host.Cell => c.1 != a) (c :: m) = List.filter (fun c => c.1 != a) m := by simp [hc]
      rw [hf, ih]
      by_cases hk : k = a
      · simp [hk]
      · have : ¬ c.1 = k := fun h => hk (h ▸ hc)
        simp [hk, Memory.get, this]
    · have hf : List.filter (fun c : Host.Cell => c.1 != a) (c :: m) = c :: List.filter (fun c => c.1 != a) m := by simp [hc]
      rw [hf]
      simp only [Memory.get, ih]
      by_cases hk : c.1 = k
      · simp [hk, show k ≠ a from hk ▸ hc]
      · simp [hk]

/-- Reading after a write: the byte written at its address, the old byte everywhere else (rule R42). -/
@[simp] theorem Memory.get_set (m : Memory) (a k : Nat) (b : Byte) :
    (m.set a b).get k = if k = a then b else m.get k := by
  simp only [Memory.set]
  split
  · rename_i h; rw [Memory.get_filter_ne, h]
  · exact Memory.get_insert m a k b

/-! ### The canonical form -/

theorem Memory.wfFrom_cons {lo : Nat} {c : Host.Cell} {m : Memory} :
    Memory.wfFrom lo (c :: m) = true ↔
      lo ≤ c.1 ∧ c.1 < Config.memCapacity ∧ c.2 ≠ unlistedByte c.1 ∧ Memory.wfFrom (c.1 + 1) m = true := by
  simp [Memory.wfFrom, and_assoc]

theorem Memory.wfFrom_mono {lo lo' : Nat} {m : Memory} (h : Memory.wfFrom lo m = true) (hle : lo' ≤ lo) :
    Memory.wfFrom lo' m = true := by
  cases m with
  | nil => rfl
  | cons c m => rw [Memory.wfFrom_cons] at h ⊢; exact ⟨by omega, h.2⟩

theorem Memory.wfFrom_filter {lo : Nat} {m : Memory} (p : Host.Cell → Bool) (h : Memory.wfFrom lo m = true) :
    Memory.wfFrom lo (m.filter p) = true := by
  induction m generalizing lo with
  | nil => rfl
  | cons c m ih =>
    rw [Memory.wfFrom_cons] at h
    by_cases hp : p c = true
    · rw [List.filter_cons_of_pos hp, Memory.wfFrom_cons]
      exact ⟨h.1, h.2.1, h.2.2.1, ih h.2.2.2⟩
    · rw [List.filter_cons_of_neg hp]
      exact Memory.wfFrom_mono (ih h.2.2.2) (by omega)

theorem Memory.wfFrom_insert {lo a : Nat} {b : Byte} {m : Memory} (h : Memory.wfFrom lo m = true) (hlo : lo ≤ a)
    (ha : a < Config.memCapacity) (hb : b ≠ unlistedByte a) : Memory.wfFrom lo (m.insert a b) = true := by
  induction m generalizing lo with
  | nil => exact Memory.wfFrom_cons.mpr ⟨hlo, ha, hb, rfl⟩
  | cons c m ih =>
    rw [Memory.wfFrom_cons] at h
    simp only [Memory.insert]
    split
    · rename_i hlt
      exact Memory.wfFrom_cons.mpr ⟨hlo, ha, hb, Memory.wfFrom_cons.mpr ⟨by omega, h.2⟩⟩
    · split
      · rename_i heq; subst heq
        exact Memory.wfFrom_cons.mpr ⟨hlo, ha, hb, h.2.2.2⟩
      · exact Memory.wfFrom_cons.mpr ⟨h.1, h.2.1, h.2.2.1, ih h.2.2.2 (by omega)⟩

/-- A write at an address that exists keeps the canonical form. -/
theorem Memory.wf_set {m : Memory} {a : Nat} {b : Byte} (h : m.wf = true) (ha : a < Config.memCapacity) :
    (m.set a b).wf = true := by
  simp only [Memory.set]
  split
  · exact Memory.wfFrom_filter _ h
  · rename_i hb; exact Memory.wfFrom_insert h (Nat.zero_le a) ha hb

/-- The memory of State.reset has the canonical form. -/
theorem Memory.wf_reset : State.reset.mem.wf = true := rfl

/-! ### A whole image (rule R25) -/

/-- The cells an image gives to the addresses from `lo`, `n` of them. -/
theorem Memory.wfFrom_image (f : Nat → Byte) (n lo : Nat) (h : lo + n ≤ Config.memCapacity) :
    Memory.wfFrom lo ((List.range' lo n).filterMap fun a => if f a = unlistedByte a then none else some (a, f a)) = true := by
  induction n generalizing lo with
  | zero => rfl
  | succ n ih =>
    have ih' := ih (lo + 1) (by omega)
    rw [List.range'_succ, List.filterMap_cons]
    by_cases hf : f lo = unlistedByte lo
    · simpa [hf] using Memory.wfFrom_mono ih' (Nat.le_succ lo)
    · simp only [hf, if_false]
      exact Memory.wfFrom_cons.mpr ⟨Nat.le_refl lo, by show lo < _; omega, hf, ih'⟩

/-- The memory built from an image has the canonical form. -/
theorem Memory.wf_ofImage (img : Vector Byte 4096) : (Memory.ofImage img).wf = true := by
  simp only [Memory.ofImage, List.range_eq_range']
  exact Memory.wfFrom_image (fun a => img.toList.getD a 0) 4096 0 (Nat.le_refl _)

theorem Memory.get_image (f : Nat → Byte) (n lo k : Nat) :
    Memory.get ((List.range' lo n).filterMap fun a => if f a = unlistedByte a then none else some (a, f a)) k
      = if lo ≤ k ∧ k < lo + n then f k else unlistedByte k := by
  induction n generalizing lo with
  | zero =>
    rw [if_neg (by omega)]
    rfl
  | succ n ih =>
    rw [List.range'_succ, List.filterMap_cons]
    by_cases hf : f lo = unlistedByte lo
    · simp only [hf, if_true, ih]
      by_cases hk : k = lo
      · subst hk; rw [if_neg (by omega), if_pos (by omega), hf]
      · by_cases hin : lo + 1 ≤ k ∧ k < lo + 1 + n
        · rw [if_pos hin, if_pos (by omega)]
        · rw [if_neg hin, if_neg (by omega)]
    · simp only [hf, if_false, Memory.get, ih]
      by_cases hk : lo = k
      · subst hk; rw [if_pos rfl, if_pos (by omega)]
      · rw [if_neg hk]
        by_cases hin : lo + 1 ≤ k ∧ k < lo + 1 + n
        · rw [if_pos hin, if_pos (by omega)]
        · rw [if_neg hin, if_neg (by omega)]

/-- The memory built from an image holds the image, and nothing above it. -/
theorem Memory.get_ofImage (img : Vector Byte 4096) (k : Nat) :
    (Memory.ofImage img).get k = if k < 4096 then img.toList.getD k 0 else unlistedByte k := by
  simp only [Memory.ofImage, List.range_eq_range']
  rw [Memory.get_image (fun a => img.toList.getD a 0)]
  simp

end Sys2Proof.Machine
end

