-- ==== Sys2Proof/Machine/HostOps.lean ====
section
/-! DEFINITION. The host's operations on the core between cycles: reset (spec/70_reset_and_hazards.md rule R230), the
accessors (spec/10_state.md rule R24), boot (rule R232), the device moves of the reference devices
(spec/45_devices.md rules R177, R178), `Step(in)` with its input as an argument (spec/40_cycle.md rule R80), and one total
order of cycles and host operations (spec/20_memory.md rule R50). All are available while the machine is halted. -/

namespace Sys2Proof.Machine

/-- The device part of a reset: the reference display is all 0 (rule R178), not ready before its first refresh (log 12). -/
def DisplayDevice.afterReset : DisplayDevice → DisplayDevice
  | .external => .external
  | .reference _ _ => .reference .blank false

/-- `Reset(quirks, mem_init)`: every piece of state of rule R10 takes its value of rule R25, in one action, halted or
running (rule R230). The parameter FONT_BASE, the keypad (log 19) and the model's own supply stay. -/
def State.hostReset (s : State) (quirks : Quirks) (memInit : Vector Byte 4096) : State :=
  { s with
    v := .replicate 16 0
    i := 0
    pc := Config.programOrigin
    stack := []
    dt := 0
    st := 0
    mem := Memory.ofImage memInit
    quirks := quirks
    fault := none
    proceed := true
    command := none
    display := s.display.afterReset }

/-- The suggested memory image: all zero with the font at the suggested FONT_BASE (spec/00_scope.md rule R5). -/
def suggestedImage : Vector Byte 4096 := .ofFn fun a => unlistedByte a.val

/-- `Step(in)`: one cycle on the sample `h` (rules R23, R80); a halted machine takes none (rule R86). -/
def stepWith (h : HostSample) (s : State) : Outcome :=
  match s.fault with
  | some c => stayHalted c s
  | none => step { s with schedule := h :: s.schedule }

/-! ### Reading accessors (rule R24): no effect -/

/-- `GetRegister(i)`. -/
def State.getRegister (s : State) (r : Reg) : Byte := s.getV r

/-- `GetIndex()`. -/
def State.getIndex (s : State) : Word := s.i

/-- `GetPC()`. -/
def State.getPC (s : State) : Word := s.pc

/-- `MemoryRead(a)`: a failure is reported to the host, FAULT.code is not set (decision D29). -/
def State.memoryRead (s : State) (a : Nat) : Except Condition Byte := memRead s a

/-- `GetQuirks()`. -/
def State.getQuirks (s : State) : Quirks := s.quirks

/-- `GetDelayTimer()`. -/
def State.getDelayTimer (s : State) : Byte := s.dt

/-- `GetSoundTimer()`. -/
def State.getSoundTimer (s : State) : Byte := s.st

/-- `GetFault()`. -/
def State.getFault (s : State) : BitVec 3 := s.faultCode

/-- `StackPop()`: the value, or StackUnderflow reported to the host with FAULT.code not set (rule R24). -/
def State.stackPop (s : State) : Except Condition (Word × State) := pop s

/-! ### Writing operations -/

/-- The host operations that write, the timer tick, reset, and the moves of the reference devices. -/
inductive HostOp where
  | setRegister (r : Reg) (b : Byte)
  | setIndex (a : Word)
  | setPC (a : Word)
  | memoryWrite (a : Nat) (b : Byte)
  | stackPush (a : Word)
  | stackPop
  | setDelayTimer (b : Byte)
  | setSoundTimer (b : Byte)
  | timerTick
  | reset (quirks : Quirks) (memInit : Vector Byte 4096)
  /-- The reference display, blank and not ready (DESIGN CHOICE, log 12). -/
  | connectDisplay
  /-- The reference keypad, no key held and no event waiting: rules R177 and R232 give no start state (DESIGN CHOICE,
  log 19; unsafe for a claim that names this keypad). -/
  | connectKeypad
  | displayRefresh
  | keyMove (m : KeyMove)
deriving DecidableEq

/-- A host access that may fail: the state stays on a failure, and the condition is only REPORTED (decision D29). -/
def reported (s : State) : Except Condition State → State × Option Condition
  | .ok t => (t, none)
  | .error c => (s, some c)

/-- The effect of a host operation, and the condition it reports to the host, which never reaches FAULT.code
(rule R24, decision D29). A device that is connected starts as `HostOp` says (log 12, 19). -/
def State.hostApply (s : State) : HostOp → State × Option Condition
  | .setRegister r b => (s.setV r b, none)
  | .setIndex a => (s.setI a, none)
  | .setPC a => (s.setPc a, none)
  | .memoryWrite a b => reported s (memWrite s a b)
  | .stackPush a => reported s (push s a)
  | .stackPop => reported s ((pop s).map Prod.snd)
  | .setDelayTimer b => (s.setDt b, none)
  | .setSoundTimer b => (s.setSt b, none)
  | .timerTick => (s.timerTick, none)
  | .reset q m => (s.hostReset q m, none)
  | .connectDisplay => ({ s with display := .reference .blank false }, none)
  | .connectKeypad => ({ s with keypad := .reference 0 none }, none)
  | .displayRefresh => ({ s with display := s.display.refresh }, none)
  | .keyMove m => ({ s with keypad := s.keypad.move m }, none)

/-- The host writes bytes at ascending addresses, as boot duties (2) and (3) of rule R232 do. -/
def State.hostLoad (s : State) (a : Nat) (bytes : List Byte) : State × Option Condition := storeBytes s a bytes

/-- The host loads a program at the program origin; a longer image than fits is reported (rules R47, R232). -/
def State.loadRom (s : State) (rom : List Byte) : State × Option Condition :=
  s.hostLoad Config.programOrigin.toNat rom

/-- The host places the font at FONT_BASE (rule R232). -/
def State.loadFont (s : State) : State × Option Condition := s.hostLoad s.fontBase.toNat fontBytes

/-! ### Histories -/

/-- One entry of the total order of cycles and host operations (rules R50, R237). -/
inductive HostEvent where
  | op (o : HostOp)
  | cycle (h : HostSample)
deriving DecidableEq

/-- The state an outcome leaves, a halted one included. -/
def leaves (s : State) : Outcome → State
  | .next t => t
  | .fault f => f.halted
  | .refused _ => s

/-- The state after one entry. -/
def State.after (s : State) : HostEvent → State
  | .op o => (s.hostApply o).1
  | .cycle h => leaves s (stepWith h s)

/-- The state after a history. -/
def State.afterAll (s : State) (es : List HostEvent) : State := es.foldl State.after s

end Sys2Proof.Machine
end

