-- ==== Sys2Proof/Safety.lean ====
section
/-! DEFINITION. What counts as a safe run, in the terms claims use: running, halted and terminal states
(spec/70_reset_and_hazards.md rule R233), the invariants of the machine, and what an instruction changes. -/

namespace Sys2Proof.Machine

/-- The machine runs: no fatal condition is latched (spec/10_state.md rule R19). -/
def State.running (s : State) : Prop := s.fault = none

/-- A terminal state: running, with a jump to itself at `pc` (rule R233). It is the good end of a run; a halted state
never is. -/
def State.terminal (s : State) : Prop :=
  s.running ∧ s.pc ≤ 0xFFE#16 ∧ fetch s = .ok (0x1000#16 ||| s.pc)

/-- The state is well-formed: memory in canonical form within the 4096 addresses, at most 16 return addresses
(spec/20_memory.md rule R40, spec/10_state.md rule R15). -/
def State.Inv (s : State) : Prop := s.mem.wf = true ∧ s.sp ≤ Config.stackDepth

/-- The bound of spec/10_state.md rule R14: `pc` is at most 0x10FE, and every return address held is at most 0x1000. -/
def State.PcBound (s : State) : Prop := s.pc ≤ 0x10FE#16 ∧ ∀ a ∈ s.stack, a ≤ 0x1000#16

/-- The outcome is a safe one: the cycle did not end in a fatal condition. -/
def Outcome.safe (o : Outcome) : Prop := ∃ t, o = .next t

/-! ### Frames: `t` is `s` but for the components named, every byte of memory included unless memory is named -/

/-- Only `pc` may differ. -/
def OnlyPc (s t : State) : Prop := t = { s with pc := t.pc } ∧ ∀ a, t.byteAt a = s.byteAt a

/-- Only general registers and `pc` may differ. -/
def OnlyRegsPc (s t : State) : Prop := t = { s with v := t.v, pc := t.pc } ∧ ∀ a, t.byteAt a = s.byteAt a

/-- Only the index register and `pc` may differ. -/
def OnlyIndexPc (s t : State) : Prop := t = { s with i := t.i, pc := t.pc } ∧ ∀ a, t.byteAt a = s.byteAt a

/-- Only the stack and `pc` may differ. -/
def OnlyStackPc (s t : State) : Prop := t = { s with stack := t.stack, pc := t.pc } ∧ ∀ a, t.byteAt a = s.byteAt a

/-- Only general registers, the index register and `pc` may differ. -/
def OnlyRegsIndexPc (s t : State) : Prop :=
  t = { s with v := t.v, i := t.i, pc := t.pc } ∧ ∀ a, t.byteAt a = s.byteAt a

/-- Only memory, the index register and `pc` may differ; the statement that uses it says which bytes. -/
def OnlyMemIndexPc (s t : State) : Prop := t = { s with mem := t.mem, i := t.i, pc := t.pc }

/-- The `n` bytes from address `a` on. -/
def inBlock (a n b : Nat) : Prop := a ≤ b ∧ b < a + n

/-! ### What an instruction does, as a claim about its outcome -/

/-- The instruction has this word, and the word decodes to it (spec/30_encoding.md rules R62, R65). -/
def WordOf (i : Instr) (w : Word) : Prop := encode i = w ∧ decodeWord w = some i

/-- The cycle completes: register `x` takes `b`, every other register stays, `pc` advances by 2, nothing else changes. -/
def WritesReg (s : State) (o : Outcome) (x : Reg) (b : Byte) : Prop :=
  ∃ t, o = .next t ∧ (∀ q, t.getV q = if q = x then b else s.getV q) ∧ t.pc = s.pc + 2 ∧ OnlyRegsPc s t

/-- The cycle completes: VF takes the flag `f`, register `x` takes `b` where it is not VF, every other register stays,
`pc` advances by 2, nothing else changes. -/
def WritesRegFlag (s : State) (o : Outcome) (x : Reg) (b f : Byte) : Prop :=
  ∃ t, o = .next t ∧ (∀ q, t.getV q = if q = 0xF then f else if q = x then b else s.getV q) ∧ t.pc = s.pc + 2 ∧
    OnlyRegsPc s t

/-- The cycle completes: `pc` takes `p`, nothing else changes. -/
def GoesTo (s : State) (o : Outcome) (p : Word) : Prop := ∃ t, o = .next t ∧ t.pc = p ∧ OnlyPc s t

/-- The cycle completes: I takes the number `n`, `pc` advances by 2, nothing else changes. -/
def WritesIndex (s : State) (o : Outcome) (n : Nat) : Prop :=
  ∃ t, o = .next t ∧ t.i.toNat = n ∧ t.pc = s.pc + 2 ∧ OnlyIndexPc s t

/-- The cycle ends in the fatal condition `c` with nothing else changed in `s` (spec/60_exceptions.md rule R208). -/
def Halts (s : State) (o : Outcome) (c : Condition) : Prop :=
  o = .fault (c.toFault { s with fault := some c, proceed := false })

/-- What I holds after a block transfer of V0 to VX that began with `s` (spec/43_index_memory.md rule R146). -/
def IndexPolicy (s t : State) (x : Reg) : Prop :=
  if s.quirks.memoryLeaveIUnchanged then t.i = s.i
  else if s.quirks.memoryIncrementByX then t.i.toNat = (s.i.toNat + x.toNat) % 65536
  else t.i.toNat = (s.i.toNat + x.toNat + 1) % 65536

/-! ### Ports (spec/45_devices.md rule R170) -/

/-- The two samples agree on every port that the instruction uses. -/
def SameUsedPorts (i : Instr) (quirks : Quirks) (p q : Ports) : Prop :=
  match i with
  | .skp _ | .sknp _ => p.keys = q.keys
  | .ldVxK _ => p.keyEvent = q.keyEvent
  | .rnd _ _ => p.rnd = q.rnd
  | .drw _ _ _ => (quirks.displayWait = true → p.dispReady = q.dispReady) ∧ p.collision = q.collision
  | _ => True

/-- A function on states carried to the state an outcome holds. -/
def mapOutcome (g : State → State) : Outcome → Outcome
  | .next t => .next (g t)
  | .fault (.addressOutOfRange t) => .fault (.addressOutOfRange (g t))
  | .fault (.stackOverflow t) => .fault (.stackOverflow (g t))
  | .fault (.stackUnderflow t) => .fault (.stackUnderflow (g t))
  | .fault (.unknownOpcode t) => .fault (.unknownOpcode (g t))
  | .refused r => .refused r

end Sys2Proof.Machine
end

