-- ==== Sys2Proof/Laws/State.lean ====
section
/-! SUPPORT. One lemma per field per update of State, so that no later proof unfolds a record update; then the views
`getV` and `byteAt` through each update. -/

namespace Sys2Proof.Machine

/-! ### setV -/

@[simp] theorem State.setV_v (s : State) (r : Reg) (b : Byte) : (s.setV r b).v = s.v.set r.toNat b := rfl
@[simp] theorem State.setV_i (s : State) (r : Reg) (b : Byte) : (s.setV r b).i = s.i := rfl
@[simp] theorem State.setV_pc (s : State) (r : Reg) (b : Byte) : (s.setV r b).pc = s.pc := rfl
@[simp] theorem State.setV_stack (s : State) (r : Reg) (b : Byte) : (s.setV r b).stack = s.stack := rfl
@[simp] theorem State.setV_dt (s : State) (r : Reg) (b : Byte) : (s.setV r b).dt = s.dt := rfl
@[simp] theorem State.setV_st (s : State) (r : Reg) (b : Byte) : (s.setV r b).st = s.st := rfl
@[simp] theorem State.setV_mem (s : State) (r : Reg) (b : Byte) : (s.setV r b).mem = s.mem := rfl
@[simp] theorem State.setV_quirks (s : State) (r : Reg) (b : Byte) : (s.setV r b).quirks = s.quirks := rfl
@[simp] theorem State.setV_fault (s : State) (r : Reg) (b : Byte) : (s.setV r b).fault = s.fault := rfl
@[simp] theorem State.setV_fontBase (s : State) (r : Reg) (b : Byte) : (s.setV r b).fontBase = s.fontBase := rfl
@[simp] theorem State.setV_ports (s : State) (r : Reg) (b : Byte) : (s.setV r b).ports = s.ports := rfl
@[simp] theorem State.setV_proceed (s : State) (r : Reg) (b : Byte) : (s.setV r b).proceed = s.proceed := rfl
@[simp] theorem State.setV_command (s : State) (r : Reg) (b : Byte) : (s.setV r b).command = s.command := rfl
@[simp] theorem State.setV_display (s : State) (r : Reg) (b : Byte) : (s.setV r b).display = s.display := rfl
@[simp] theorem State.setV_keypad (s : State) (r : Reg) (b : Byte) : (s.setV r b).keypad = s.keypad := rfl
@[simp] theorem State.setV_schedule (s : State) (r : Reg) (b : Byte) : (s.setV r b).schedule = s.schedule := rfl
@[simp] theorem State.setV_cycle (s : State) (r : Reg) (b : Byte) : (s.setV r b).cycle = s.cycle := rfl

/-! ### setI -/

@[simp] theorem State.setI_v (s : State) (a : Word) : (s.setI a).v = s.v := rfl
@[simp] theorem State.setI_i (s : State) (a : Word) : (s.setI a).i = a := rfl
@[simp] theorem State.setI_pc (s : State) (a : Word) : (s.setI a).pc = s.pc := rfl
@[simp] theorem State.setI_stack (s : State) (a : Word) : (s.setI a).stack = s.stack := rfl
@[simp] theorem State.setI_dt (s : State) (a : Word) : (s.setI a).dt = s.dt := rfl
@[simp] theorem State.setI_st (s : State) (a : Word) : (s.setI a).st = s.st := rfl
@[simp] theorem State.setI_mem (s : State) (a : Word) : (s.setI a).mem = s.mem := rfl
@[simp] theorem State.setI_quirks (s : State) (a : Word) : (s.setI a).quirks = s.quirks := rfl
@[simp] theorem State.setI_fault (s : State) (a : Word) : (s.setI a).fault = s.fault := rfl
@[simp] theorem State.setI_fontBase (s : State) (a : Word) : (s.setI a).fontBase = s.fontBase := rfl
@[simp] theorem State.setI_ports (s : State) (a : Word) : (s.setI a).ports = s.ports := rfl
@[simp] theorem State.setI_proceed (s : State) (a : Word) : (s.setI a).proceed = s.proceed := rfl
@[simp] theorem State.setI_command (s : State) (a : Word) : (s.setI a).command = s.command := rfl
@[simp] theorem State.setI_display (s : State) (a : Word) : (s.setI a).display = s.display := rfl
@[simp] theorem State.setI_keypad (s : State) (a : Word) : (s.setI a).keypad = s.keypad := rfl
@[simp] theorem State.setI_schedule (s : State) (a : Word) : (s.setI a).schedule = s.schedule := rfl
@[simp] theorem State.setI_cycle (s : State) (a : Word) : (s.setI a).cycle = s.cycle := rfl

/-! ### setPc -/

@[simp] theorem State.setPc_v (s : State) (a : Word) : (s.setPc a).v = s.v := rfl
@[simp] theorem State.setPc_i (s : State) (a : Word) : (s.setPc a).i = s.i := rfl
@[simp] theorem State.setPc_pc (s : State) (a : Word) : (s.setPc a).pc = a := rfl
@[simp] theorem State.setPc_stack (s : State) (a : Word) : (s.setPc a).stack = s.stack := rfl
@[simp] theorem State.setPc_dt (s : State) (a : Word) : (s.setPc a).dt = s.dt := rfl
@[simp] theorem State.setPc_st (s : State) (a : Word) : (s.setPc a).st = s.st := rfl
@[simp] theorem State.setPc_mem (s : State) (a : Word) : (s.setPc a).mem = s.mem := rfl
@[simp] theorem State.setPc_quirks (s : State) (a : Word) : (s.setPc a).quirks = s.quirks := rfl
@[simp] theorem State.setPc_fault (s : State) (a : Word) : (s.setPc a).fault = s.fault := rfl
@[simp] theorem State.setPc_fontBase (s : State) (a : Word) : (s.setPc a).fontBase = s.fontBase := rfl
@[simp] theorem State.setPc_ports (s : State) (a : Word) : (s.setPc a).ports = s.ports := rfl
@[simp] theorem State.setPc_proceed (s : State) (a : Word) : (s.setPc a).proceed = s.proceed := rfl
@[simp] theorem State.setPc_command (s : State) (a : Word) : (s.setPc a).command = s.command := rfl
@[simp] theorem State.setPc_display (s : State) (a : Word) : (s.setPc a).display = s.display := rfl
@[simp] theorem State.setPc_keypad (s : State) (a : Word) : (s.setPc a).keypad = s.keypad := rfl
@[simp] theorem State.setPc_schedule (s : State) (a : Word) : (s.setPc a).schedule = s.schedule := rfl
@[simp] theorem State.setPc_cycle (s : State) (a : Word) : (s.setPc a).cycle = s.cycle := rfl

/-! ### advance -/

@[simp] theorem State.advance_v (s : State) : (s.advance).v = s.v := rfl
@[simp] theorem State.advance_i (s : State) : (s.advance).i = s.i := rfl
@[simp] theorem State.advance_pc (s : State) : (s.advance).pc = s.pc + 2 := rfl
@[simp] theorem State.advance_stack (s : State) : (s.advance).stack = s.stack := rfl
@[simp] theorem State.advance_dt (s : State) : (s.advance).dt = s.dt := rfl
@[simp] theorem State.advance_st (s : State) : (s.advance).st = s.st := rfl
@[simp] theorem State.advance_mem (s : State) : (s.advance).mem = s.mem := rfl
@[simp] theorem State.advance_quirks (s : State) : (s.advance).quirks = s.quirks := rfl
@[simp] theorem State.advance_fault (s : State) : (s.advance).fault = s.fault := rfl
@[simp] theorem State.advance_fontBase (s : State) : (s.advance).fontBase = s.fontBase := rfl
@[simp] theorem State.advance_ports (s : State) : (s.advance).ports = s.ports := rfl
@[simp] theorem State.advance_proceed (s : State) : (s.advance).proceed = s.proceed := rfl
@[simp] theorem State.advance_command (s : State) : (s.advance).command = s.command := rfl
@[simp] theorem State.advance_display (s : State) : (s.advance).display = s.display := rfl
@[simp] theorem State.advance_keypad (s : State) : (s.advance).keypad = s.keypad := rfl
@[simp] theorem State.advance_schedule (s : State) : (s.advance).schedule = s.schedule := rfl
@[simp] theorem State.advance_cycle (s : State) : (s.advance).cycle = s.cycle := rfl

/-! ### skipIf -/

@[simp] theorem State.skipIf_v (s : State) (c : Bool) : (s.skipIf c).v = s.v := rfl
@[simp] theorem State.skipIf_i (s : State) (c : Bool) : (s.skipIf c).i = s.i := rfl
@[simp] theorem State.skipIf_pc (s : State) (c : Bool) : (s.skipIf c).pc = if c then s.pc + 4 else s.pc + 2 := rfl
@[simp] theorem State.skipIf_stack (s : State) (c : Bool) : (s.skipIf c).stack = s.stack := rfl
@[simp] theorem State.skipIf_dt (s : State) (c : Bool) : (s.skipIf c).dt = s.dt := rfl
@[simp] theorem State.skipIf_st (s : State) (c : Bool) : (s.skipIf c).st = s.st := rfl
@[simp] theorem State.skipIf_mem (s : State) (c : Bool) : (s.skipIf c).mem = s.mem := rfl
@[simp] theorem State.skipIf_quirks (s : State) (c : Bool) : (s.skipIf c).quirks = s.quirks := rfl
@[simp] theorem State.skipIf_fault (s : State) (c : Bool) : (s.skipIf c).fault = s.fault := rfl
@[simp] theorem State.skipIf_fontBase (s : State) (c : Bool) : (s.skipIf c).fontBase = s.fontBase := rfl
@[simp] theorem State.skipIf_ports (s : State) (c : Bool) : (s.skipIf c).ports = s.ports := rfl
@[simp] theorem State.skipIf_proceed (s : State) (c : Bool) : (s.skipIf c).proceed = s.proceed := rfl
@[simp] theorem State.skipIf_command (s : State) (c : Bool) : (s.skipIf c).command = s.command := rfl
@[simp] theorem State.skipIf_display (s : State) (c : Bool) : (s.skipIf c).display = s.display := rfl
@[simp] theorem State.skipIf_keypad (s : State) (c : Bool) : (s.skipIf c).keypad = s.keypad := rfl
@[simp] theorem State.skipIf_schedule (s : State) (c : Bool) : (s.skipIf c).schedule = s.schedule := rfl
@[simp] theorem State.skipIf_cycle (s : State) (c : Bool) : (s.skipIf c).cycle = s.cycle := rfl

/-! ### latch -/

@[simp] theorem State.latch_v (s : State) (c : Condition) : (s.latch c).v = s.v := rfl
@[simp] theorem State.latch_i (s : State) (c : Condition) : (s.latch c).i = s.i := rfl
@[simp] theorem State.latch_pc (s : State) (c : Condition) : (s.latch c).pc = s.pc := rfl
@[simp] theorem State.latch_stack (s : State) (c : Condition) : (s.latch c).stack = s.stack := rfl
@[simp] theorem State.latch_dt (s : State) (c : Condition) : (s.latch c).dt = s.dt := rfl
@[simp] theorem State.latch_st (s : State) (c : Condition) : (s.latch c).st = s.st := rfl
@[simp] theorem State.latch_mem (s : State) (c : Condition) : (s.latch c).mem = s.mem := rfl
@[simp] theorem State.latch_quirks (s : State) (c : Condition) : (s.latch c).quirks = s.quirks := rfl
@[simp] theorem State.latch_fault (s : State) (c : Condition) : (s.latch c).fault = some c := rfl
@[simp] theorem State.latch_fontBase (s : State) (c : Condition) : (s.latch c).fontBase = s.fontBase := rfl
@[simp] theorem State.latch_ports (s : State) (c : Condition) : (s.latch c).ports = s.ports := rfl
@[simp] theorem State.latch_proceed (s : State) (c : Condition) : (s.latch c).proceed = false := rfl
@[simp] theorem State.latch_command (s : State) (c : Condition) : (s.latch c).command = s.command := rfl
@[simp] theorem State.latch_display (s : State) (c : Condition) : (s.latch c).display = s.display := rfl
@[simp] theorem State.latch_keypad (s : State) (c : Condition) : (s.latch c).keypad = s.keypad := rfl
@[simp] theorem State.latch_schedule (s : State) (c : Condition) : (s.latch c).schedule = s.schedule := rfl
@[simp] theorem State.latch_cycle (s : State) (c : Condition) : (s.latch c).cycle = s.cycle := rfl

/-! ### waitCycle -/

@[simp] theorem State.waitCycle_v (s : State) : (s.waitCycle).v = s.v := rfl
@[simp] theorem State.waitCycle_i (s : State) : (s.waitCycle).i = s.i := rfl
@[simp] theorem State.waitCycle_pc (s : State) : (s.waitCycle).pc = s.pc := rfl
@[simp] theorem State.waitCycle_stack (s : State) : (s.waitCycle).stack = s.stack := rfl
@[simp] theorem State.waitCycle_dt (s : State) : (s.waitCycle).dt = s.dt := rfl
@[simp] theorem State.waitCycle_st (s : State) : (s.waitCycle).st = s.st := rfl
@[simp] theorem State.waitCycle_mem (s : State) : (s.waitCycle).mem = s.mem := rfl
@[simp] theorem State.waitCycle_quirks (s : State) : (s.waitCycle).quirks = s.quirks := rfl
@[simp] theorem State.waitCycle_fault (s : State) : (s.waitCycle).fault = s.fault := rfl
@[simp] theorem State.waitCycle_fontBase (s : State) : (s.waitCycle).fontBase = s.fontBase := rfl
@[simp] theorem State.waitCycle_ports (s : State) : (s.waitCycle).ports = s.ports := rfl
@[simp] theorem State.waitCycle_proceed (s : State) : (s.waitCycle).proceed = false := rfl
@[simp] theorem State.waitCycle_command (s : State) : (s.waitCycle).command = s.command := rfl
@[simp] theorem State.waitCycle_display (s : State) : (s.waitCycle).display = s.display := rfl
@[simp] theorem State.waitCycle_keypad (s : State) : (s.waitCycle).keypad = s.keypad := rfl
@[simp] theorem State.waitCycle_schedule (s : State) : (s.waitCycle).schedule = s.schedule := rfl
@[simp] theorem State.waitCycle_cycle (s : State) : (s.waitCycle).cycle = s.cycle := rfl

/-! ### displayClear -/

@[simp] theorem State.displayClear_v (s : State) : (s.displayClear).v = s.v := rfl
@[simp] theorem State.displayClear_i (s : State) : (s.displayClear).i = s.i := rfl
@[simp] theorem State.displayClear_pc (s : State) : (s.displayClear).pc = s.pc := rfl
@[simp] theorem State.displayClear_stack (s : State) : (s.displayClear).stack = s.stack := rfl
@[simp] theorem State.displayClear_dt (s : State) : (s.displayClear).dt = s.dt := rfl
@[simp] theorem State.displayClear_st (s : State) : (s.displayClear).st = s.st := rfl
@[simp] theorem State.displayClear_mem (s : State) : (s.displayClear).mem = s.mem := rfl
@[simp] theorem State.displayClear_quirks (s : State) : (s.displayClear).quirks = s.quirks := rfl
@[simp] theorem State.displayClear_fault (s : State) : (s.displayClear).fault = s.fault := rfl
@[simp] theorem State.displayClear_fontBase (s : State) : (s.displayClear).fontBase = s.fontBase := rfl
@[simp] theorem State.displayClear_ports (s : State) : (s.displayClear).ports = s.ports := rfl
@[simp] theorem State.displayClear_proceed (s : State) : (s.displayClear).proceed = s.proceed := rfl
@[simp] theorem State.displayClear_command (s : State) : (s.displayClear).command = some .clear := rfl
@[simp] theorem State.displayClear_display (s : State) : (s.displayClear).display = s.display.clear := rfl
@[simp] theorem State.displayClear_keypad (s : State) : (s.displayClear).keypad = s.keypad := rfl
@[simp] theorem State.displayClear_schedule (s : State) : (s.displayClear).schedule = s.schedule := rfl
@[simp] theorem State.displayClear_cycle (s : State) : (s.displayClear).cycle = s.cycle := rfl

/-! ### displayDraw -/

@[simp] theorem State.displayDraw_v (s : State) (x y : Byte) (rows : List Byte) : (s.displayDraw x y rows).v = s.v := rfl
@[simp] theorem State.displayDraw_i (s : State) (x y : Byte) (rows : List Byte) : (s.displayDraw x y rows).i = s.i := rfl
@[simp] theorem State.displayDraw_pc (s : State) (x y : Byte) (rows : List Byte) : (s.displayDraw x y rows).pc = s.pc := rfl
@[simp] theorem State.displayDraw_stack (s : State) (x y : Byte) (rows : List Byte) : (s.displayDraw x y rows).stack = s.stack := rfl
@[simp] theorem State.displayDraw_dt (s : State) (x y : Byte) (rows : List Byte) : (s.displayDraw x y rows).dt = s.dt := rfl
@[simp] theorem State.displayDraw_st (s : State) (x y : Byte) (rows : List Byte) : (s.displayDraw x y rows).st = s.st := rfl
@[simp] theorem State.displayDraw_mem (s : State) (x y : Byte) (rows : List Byte) : (s.displayDraw x y rows).mem = s.mem := rfl
@[simp] theorem State.displayDraw_quirks (s : State) (x y : Byte) (rows : List Byte) : (s.displayDraw x y rows).quirks = s.quirks := rfl
@[simp] theorem State.displayDraw_fault (s : State) (x y : Byte) (rows : List Byte) : (s.displayDraw x y rows).fault = s.fault := rfl
@[simp] theorem State.displayDraw_fontBase (s : State) (x y : Byte) (rows : List Byte) : (s.displayDraw x y rows).fontBase = s.fontBase := rfl
@[simp] theorem State.displayDraw_ports (s : State) (x y : Byte) (rows : List Byte) : (s.displayDraw x y rows).ports = s.ports := rfl
@[simp] theorem State.displayDraw_proceed (s : State) (x y : Byte) (rows : List Byte) : (s.displayDraw x y rows).proceed = s.proceed := rfl
@[simp] theorem State.displayDraw_command (s : State) (x y : Byte) (rows : List Byte) : (s.displayDraw x y rows).command = some (.draw x y rows) := rfl
@[simp] theorem State.displayDraw_display (s : State) (x y : Byte) (rows : List Byte) : (s.displayDraw x y rows).display = (s.display.draw x y rows s.ports.collision).1 := rfl
@[simp] theorem State.displayDraw_keypad (s : State) (x y : Byte) (rows : List Byte) : (s.displayDraw x y rows).keypad = s.keypad := rfl
@[simp] theorem State.displayDraw_schedule (s : State) (x y : Byte) (rows : List Byte) : (s.displayDraw x y rows).schedule = s.schedule := rfl
@[simp] theorem State.displayDraw_cycle (s : State) (x y : Byte) (rows : List Byte) : (s.displayDraw x y rows).cycle = s.cycle := rfl

/-! ### consumeKeyEvent -/

@[simp] theorem State.consumeKeyEvent_v (s : State) : (s.consumeKeyEvent).v = s.v := rfl
@[simp] theorem State.consumeKeyEvent_i (s : State) : (s.consumeKeyEvent).i = s.i := rfl
@[simp] theorem State.consumeKeyEvent_pc (s : State) : (s.consumeKeyEvent).pc = s.pc := rfl
@[simp] theorem State.consumeKeyEvent_stack (s : State) : (s.consumeKeyEvent).stack = s.stack := rfl
@[simp] theorem State.consumeKeyEvent_dt (s : State) : (s.consumeKeyEvent).dt = s.dt := rfl
@[simp] theorem State.consumeKeyEvent_st (s : State) : (s.consumeKeyEvent).st = s.st := rfl
@[simp] theorem State.consumeKeyEvent_mem (s : State) : (s.consumeKeyEvent).mem = s.mem := rfl
@[simp] theorem State.consumeKeyEvent_quirks (s : State) : (s.consumeKeyEvent).quirks = s.quirks := rfl
@[simp] theorem State.consumeKeyEvent_fault (s : State) : (s.consumeKeyEvent).fault = s.fault := rfl
@[simp] theorem State.consumeKeyEvent_fontBase (s : State) : (s.consumeKeyEvent).fontBase = s.fontBase := rfl
@[simp] theorem State.consumeKeyEvent_ports (s : State) : (s.consumeKeyEvent).ports = s.ports := rfl
@[simp] theorem State.consumeKeyEvent_proceed (s : State) : (s.consumeKeyEvent).proceed = s.proceed := rfl
@[simp] theorem State.consumeKeyEvent_command (s : State) : (s.consumeKeyEvent).command = s.command := rfl
@[simp] theorem State.consumeKeyEvent_display (s : State) : (s.consumeKeyEvent).display = s.display := rfl
@[simp] theorem State.consumeKeyEvent_keypad (s : State) : (s.consumeKeyEvent).keypad = s.keypad.consume := rfl
@[simp] theorem State.consumeKeyEvent_schedule (s : State) : (s.consumeKeyEvent).schedule = s.schedule := rfl
@[simp] theorem State.consumeKeyEvent_cycle (s : State) : (s.consumeKeyEvent).cycle = s.cycle := rfl

/-! ### setDt -/

@[simp] theorem State.setDt_v (s : State) (b : Byte) : (s.setDt b).v = s.v := rfl
@[simp] theorem State.setDt_i (s : State) (b : Byte) : (s.setDt b).i = s.i := rfl
@[simp] theorem State.setDt_pc (s : State) (b : Byte) : (s.setDt b).pc = s.pc := rfl
@[simp] theorem State.setDt_stack (s : State) (b : Byte) : (s.setDt b).stack = s.stack := rfl
@[simp] theorem State.setDt_dt (s : State) (b : Byte) : (s.setDt b).dt = b := rfl
@[simp] theorem State.setDt_st (s : State) (b : Byte) : (s.setDt b).st = s.st := rfl
@[simp] theorem State.setDt_mem (s : State) (b : Byte) : (s.setDt b).mem = s.mem := rfl
@[simp] theorem State.setDt_quirks (s : State) (b : Byte) : (s.setDt b).quirks = s.quirks := rfl
@[simp] theorem State.setDt_fault (s : State) (b : Byte) : (s.setDt b).fault = s.fault := rfl
@[simp] theorem State.setDt_fontBase (s : State) (b : Byte) : (s.setDt b).fontBase = s.fontBase := rfl
@[simp] theorem State.setDt_ports (s : State) (b : Byte) : (s.setDt b).ports = s.ports := rfl
@[simp] theorem State.setDt_proceed (s : State) (b : Byte) : (s.setDt b).proceed = s.proceed := rfl
@[simp] theorem State.setDt_command (s : State) (b : Byte) : (s.setDt b).command = s.command := rfl
@[simp] theorem State.setDt_display (s : State) (b : Byte) : (s.setDt b).display = s.display := rfl
@[simp] theorem State.setDt_keypad (s : State) (b : Byte) : (s.setDt b).keypad = s.keypad := rfl
@[simp] theorem State.setDt_schedule (s : State) (b : Byte) : (s.setDt b).schedule = s.schedule := rfl
@[simp] theorem State.setDt_cycle (s : State) (b : Byte) : (s.setDt b).cycle = s.cycle := rfl

/-! ### setSt -/

@[simp] theorem State.setSt_v (s : State) (b : Byte) : (s.setSt b).v = s.v := rfl
@[simp] theorem State.setSt_i (s : State) (b : Byte) : (s.setSt b).i = s.i := rfl
@[simp] theorem State.setSt_pc (s : State) (b : Byte) : (s.setSt b).pc = s.pc := rfl
@[simp] theorem State.setSt_stack (s : State) (b : Byte) : (s.setSt b).stack = s.stack := rfl
@[simp] theorem State.setSt_dt (s : State) (b : Byte) : (s.setSt b).dt = s.dt := rfl
@[simp] theorem State.setSt_st (s : State) (b : Byte) : (s.setSt b).st = b := rfl
@[simp] theorem State.setSt_mem (s : State) (b : Byte) : (s.setSt b).mem = s.mem := rfl
@[simp] theorem State.setSt_quirks (s : State) (b : Byte) : (s.setSt b).quirks = s.quirks := rfl
@[simp] theorem State.setSt_fault (s : State) (b : Byte) : (s.setSt b).fault = s.fault := rfl
@[simp] theorem State.setSt_fontBase (s : State) (b : Byte) : (s.setSt b).fontBase = s.fontBase := rfl
@[simp] theorem State.setSt_ports (s : State) (b : Byte) : (s.setSt b).ports = s.ports := rfl
@[simp] theorem State.setSt_proceed (s : State) (b : Byte) : (s.setSt b).proceed = s.proceed := rfl
@[simp] theorem State.setSt_command (s : State) (b : Byte) : (s.setSt b).command = s.command := rfl
@[simp] theorem State.setSt_display (s : State) (b : Byte) : (s.setSt b).display = s.display := rfl
@[simp] theorem State.setSt_keypad (s : State) (b : Byte) : (s.setSt b).keypad = s.keypad := rfl
@[simp] theorem State.setSt_schedule (s : State) (b : Byte) : (s.setSt b).schedule = s.schedule := rfl
@[simp] theorem State.setSt_cycle (s : State) (b : Byte) : (s.setSt b).cycle = s.cycle := rfl

/-! ### timerTick -/

@[simp] theorem State.timerTick_v (s : State) : (s.timerTick).v = s.v := rfl
@[simp] theorem State.timerTick_i (s : State) : (s.timerTick).i = s.i := rfl
@[simp] theorem State.timerTick_pc (s : State) : (s.timerTick).pc = s.pc := rfl
@[simp] theorem State.timerTick_stack (s : State) : (s.timerTick).stack = s.stack := rfl
@[simp] theorem State.timerTick_dt (s : State) : (s.timerTick).dt = tickByte s.dt := rfl
@[simp] theorem State.timerTick_st (s : State) : (s.timerTick).st = tickByte s.st := rfl
@[simp] theorem State.timerTick_mem (s : State) : (s.timerTick).mem = s.mem := rfl
@[simp] theorem State.timerTick_quirks (s : State) : (s.timerTick).quirks = s.quirks := rfl
@[simp] theorem State.timerTick_fault (s : State) : (s.timerTick).fault = s.fault := rfl
@[simp] theorem State.timerTick_fontBase (s : State) : (s.timerTick).fontBase = s.fontBase := rfl
@[simp] theorem State.timerTick_ports (s : State) : (s.timerTick).ports = s.ports := rfl
@[simp] theorem State.timerTick_proceed (s : State) : (s.timerTick).proceed = s.proceed := rfl
@[simp] theorem State.timerTick_command (s : State) : (s.timerTick).command = s.command := rfl
@[simp] theorem State.timerTick_display (s : State) : (s.timerTick).display = s.display := rfl
@[simp] theorem State.timerTick_keypad (s : State) : (s.timerTick).keypad = s.keypad := rfl
@[simp] theorem State.timerTick_schedule (s : State) : (s.timerTick).schedule = s.schedule := rfl
@[simp] theorem State.timerTick_cycle (s : State) : (s.timerTick).cycle = s.cycle := rfl

/-! ### beginCycle -/

@[simp] theorem State.beginCycle_v (s : State) : (s.beginCycle).v = s.v := rfl
@[simp] theorem State.beginCycle_i (s : State) : (s.beginCycle).i = s.i := rfl
@[simp] theorem State.beginCycle_pc (s : State) : (s.beginCycle).pc = s.pc := rfl
@[simp] theorem State.beginCycle_stack (s : State) : (s.beginCycle).stack = s.stack := rfl
@[simp] theorem State.beginCycle_dt (s : State) : (s.beginCycle).dt = tickTimes s.nextSample.ticks s.dt := rfl
@[simp] theorem State.beginCycle_st (s : State) : (s.beginCycle).st = tickTimes s.nextSample.ticks s.st := rfl
@[simp] theorem State.beginCycle_mem (s : State) : (s.beginCycle).mem = s.mem := rfl
@[simp] theorem State.beginCycle_quirks (s : State) : (s.beginCycle).quirks = s.quirks := rfl
@[simp] theorem State.beginCycle_fault (s : State) : (s.beginCycle).fault = s.fault := rfl
@[simp] theorem State.beginCycle_fontBase (s : State) : (s.beginCycle).fontBase = s.fontBase := rfl
theorem State.beginCycle_ports (s : State) : (s.beginCycle).ports = samplePorts s.beginCycle.display s.beginCycle.keypad s.nextSample.ports := rfl
@[simp] theorem State.beginCycle_proceed (s : State) : (s.beginCycle).proceed = true := rfl
@[simp] theorem State.beginCycle_command (s : State) : (s.beginCycle).command = none := rfl
@[simp] theorem State.beginCycle_display (s : State) : (s.beginCycle).display = if s.nextSample.refresh then s.display.refresh else s.display := rfl
@[simp] theorem State.beginCycle_keypad (s : State) : (s.beginCycle).keypad = s.nextSample.keyMoves.foldl KeypadDevice.move s.keypad := rfl
@[simp] theorem State.beginCycle_schedule (s : State) : (s.beginCycle).schedule = s.schedule.tail := rfl
@[simp] theorem State.beginCycle_cycle (s : State) : (s.beginCycle).cycle = s.cycle + 1 := rfl

/-! ### Registers and bytes through the updates -/

@[simp] theorem State.getV_setV (s : State) (r q : Reg) (b : Byte) :
    (s.setV r b).getV q = if q = r then b else s.getV q := by
  simp [State.setV, State.getV, Vector.getElem_set, BitVec.toNat_inj, eq_comm]

@[simp] theorem State.byteAt_setV (s : State) (r : Reg) (b : Byte) (k : Nat) : (s.setV r b).byteAt k = s.byteAt k := rfl
@[simp] theorem State.getV_setI (s : State) (a : Word) (q : Reg) : (s.setI a).getV q = s.getV q := rfl
@[simp] theorem State.byteAt_setI (s : State) (a : Word) (k : Nat) : (s.setI a).byteAt k = s.byteAt k := rfl
@[simp] theorem State.getV_setPc (s : State) (a : Word) (q : Reg) : (s.setPc a).getV q = s.getV q := rfl
@[simp] theorem State.byteAt_setPc (s : State) (a : Word) (k : Nat) : (s.setPc a).byteAt k = s.byteAt k := rfl
@[simp] theorem State.getV_advance (s : State) (q : Reg) : (s.advance).getV q = s.getV q := rfl
@[simp] theorem State.byteAt_advance (s : State) (k : Nat) : (s.advance).byteAt k = s.byteAt k := rfl
@[simp] theorem State.getV_skipIf (s : State) (c : Bool) (q : Reg) : (s.skipIf c).getV q = s.getV q := rfl
@[simp] theorem State.byteAt_skipIf (s : State) (c : Bool) (k : Nat) : (s.skipIf c).byteAt k = s.byteAt k := rfl
@[simp] theorem State.getV_latch (s : State) (c : Condition) (q : Reg) : (s.latch c).getV q = s.getV q := rfl
@[simp] theorem State.byteAt_latch (s : State) (c : Condition) (k : Nat) : (s.latch c).byteAt k = s.byteAt k := rfl
@[simp] theorem State.getV_waitCycle (s : State) (q : Reg) : (s.waitCycle).getV q = s.getV q := rfl
@[simp] theorem State.byteAt_waitCycle (s : State) (k : Nat) : (s.waitCycle).byteAt k = s.byteAt k := rfl
@[simp] theorem State.getV_displayClear (s : State) (q : Reg) : (s.displayClear).getV q = s.getV q := rfl
@[simp] theorem State.byteAt_displayClear (s : State) (k : Nat) : (s.displayClear).byteAt k = s.byteAt k := rfl
@[simp] theorem State.getV_displayDraw (s : State) (x y : Byte) (rows : List Byte) (q : Reg) : (s.displayDraw x y rows).getV q = s.getV q := rfl
@[simp] theorem State.byteAt_displayDraw (s : State) (x y : Byte) (rows : List Byte) (k : Nat) : (s.displayDraw x y rows).byteAt k = s.byteAt k := rfl
@[simp] theorem State.getV_consumeKeyEvent (s : State) (q : Reg) : (s.consumeKeyEvent).getV q = s.getV q := rfl
@[simp] theorem State.byteAt_consumeKeyEvent (s : State) (k : Nat) : (s.consumeKeyEvent).byteAt k = s.byteAt k := rfl
@[simp] theorem State.getV_setDt (s : State) (b : Byte) (q : Reg) : (s.setDt b).getV q = s.getV q := rfl
@[simp] theorem State.byteAt_setDt (s : State) (b : Byte) (k : Nat) : (s.setDt b).byteAt k = s.byteAt k := rfl
@[simp] theorem State.getV_setSt (s : State) (b : Byte) (q : Reg) : (s.setSt b).getV q = s.getV q := rfl
@[simp] theorem State.byteAt_setSt (s : State) (b : Byte) (k : Nat) : (s.setSt b).byteAt k = s.byteAt k := rfl
@[simp] theorem State.getV_timerTick (s : State) (q : Reg) : (s.timerTick).getV q = s.getV q := rfl
@[simp] theorem State.byteAt_timerTick (s : State) (k : Nat) : (s.timerTick).byteAt k = s.byteAt k := rfl
@[simp] theorem State.getV_beginCycle (s : State) (q : Reg) : (s.beginCycle).getV q = s.getV q := rfl
@[simp] theorem State.byteAt_beginCycle (s : State) (k : Nat) : (s.beginCycle).byteAt k = s.byteAt k := rfl

/-- The flag write comes last, so VF holds the flag whatever X is (spec/41_alu.md rule R112). -/
theorem State.getV_setVThenFlag (s : State) (x q : Reg) (b f : Byte) :
    (s.setVThenFlag x b f).getV q = if q = flagReg then f else if q = x then b else s.getV q := by
  simp [State.setVThenFlag]

/-- Two states with the same register file read the same registers. -/
theorem State.getV_of_v_eq {s t : State} (h : t.v = s.v) (q : Reg) : t.getV q = s.getV q := by
  simp [State.getV, h]

/-- Two states with the same memory hold the same bytes. -/
theorem State.byteAt_of_mem_eq {s t : State} (h : t.mem = s.mem) (a : Nat) : t.byteAt a = s.byteAt a := by
  simp [State.byteAt, h]

/-- Register files that agree on every register are equal. -/
theorem State.v_ext {s t : State} (h : ∀ q, t.getV q = s.getV q) : t.v = s.v := by
  refine Vector.ext fun k hk => ?_
  have := h (BitVec.ofNat 4 k)
  simpa [State.getV, Nat.mod_eq_of_lt hk] using this

/-! ### The invariants depend on three fields -/

/-- The invariant looks at memory and the stack only. -/
theorem State.inv_congr {s t : State} (hm : t.mem = s.mem) (hst : t.stack = s.stack) : t.Inv ↔ s.Inv := by
  simp only [State.Inv, State.sp, hm, hst]

/-- The bound looks at `pc` and the stack only. -/
theorem State.pcBound_congr {s t : State} (hp : t.pc = s.pc) (hst : t.stack = s.stack) : t.PcBound ↔ s.PcBound := by
  simp only [State.PcBound, hp, hst]

end Sys2Proof.Machine
end

