-- ==== Sys2Proof/Laws/Ops.lean ====
section
/-! SUPPORT. For each shared operation one lemma (or a few) that says everything it can do; callers cite it and do not
unfold the operation. -/

namespace Sys2Proof.Machine

/-! ### One byte (spec/20_memory.md rules R41, R42) -/

theorem memRead_eq (s : State) (a : Nat) :
    memRead s a = if a < 4096 then .ok (s.byteAt a) else .error .addressOutOfRange := by
  unfold memRead Config.memCapacity
  by_cases h : a < 4096
  · rw [if_pos h, if_neg (by omega)]
  · rw [if_neg h, if_pos (by omega)]

theorem memWrite_eq (s : State) (a : Nat) (b : Byte) :
    memWrite s a b = if a < 4096 then .ok { s with mem := s.mem.set a b } else .error .addressOutOfRange := by
  unfold memWrite Config.memCapacity
  by_cases h : a < 4096
  · rw [if_pos h, if_neg (by omega)]
  · rw [if_neg h, if_pos (by omega)]

/-- The bytes after one is set. -/
theorem byteAt_setByte (s : State) (a k : Nat) (b : Byte) :
    State.byteAt { s with mem := s.mem.set a b } k = if k = a then b else s.byteAt k :=
  Memory.get_set s.mem a k b

/-! ### Block store (rule R46) -/

/-- A block store changes memory only. -/
theorem storeBytes_only_mem (s : State) (a : Nat) (bs : List Byte) :
    (storeBytes s a bs).1 = { s with mem := (storeBytes s a bs).1.mem } := by
  induction bs generalizing s a with
  | nil => rfl
  | cons b bs ih =>
    simp only [storeBytes, memWrite_eq]
    by_cases h : a < 4096
    · simp only [if_pos h]; exact ih _ _
    · simp only [if_neg h]

/-- A block store stops exactly when one of its addresses does not exist. -/
theorem storeBytes_stop (s : State) (a : Nat) (bs : List Byte) :
    (storeBytes s a bs).2 = if bs = [] ∨ a + bs.length ≤ 4096 then none else some .addressOutOfRange := by
  induction bs generalizing s a with
  | nil => rfl
  | cons b bs ih =>
    simp only [storeBytes, memWrite_eq]
    by_cases h : a < 4096
    · simp only [if_pos h, ih, List.length_cons, reduceCtorEq, false_or]
      cases bs with
      | nil => simp; omega
      | cons c cs => simp [show a + 1 + (cs.length + 1) = a + (cs.length + 1 + 1) by omega]
    · simp only [if_neg h, List.length_cons, reduceCtorEq, false_or]
      rw [if_neg (by omega)]

/-- The bytes after a block store, complete or stopped: the block's at its addresses that exist, the old ones elsewhere. -/
theorem storeBytes_byteAt (s : State) (a k : Nat) (bs : List Byte) :
    (storeBytes s a bs).1.byteAt k
      = if a ≤ k ∧ k < a + bs.length ∧ k < 4096 then bs.getD (k - a) 0 else s.byteAt k := by
  induction bs generalizing s a with
  | nil => simp only [storeBytes, List.length_nil]; rw [if_neg (by omega)]
  | cons b bs ih =>
    simp only [storeBytes, memWrite_eq]
    by_cases h : a < 4096
    · simp only [if_pos h, ih, byteAt_setByte, List.length_cons]
      by_cases hk : k = a
      · subst hk
        rw [if_neg (by omega), if_pos rfl, if_pos (by omega)]; simp
      · by_cases hin : a + 1 ≤ k ∧ k < a + 1 + bs.length ∧ k < 4096
        · rw [if_pos hin, if_pos (by omega), show k - a = (k - (a + 1)) + 1 by omega, List.getD_cons_succ]
        · rw [if_neg hin, if_neg hk, if_neg (by omega)]
    · simp only [if_neg h]; rw [if_neg (by omega)]

/-- A block store keeps the canonical form. -/
theorem storeBytes_wf (s : State) (a : Nat) (bs : List Byte) (h : s.mem.wf = true) :
    (storeBytes s a bs).1.mem.wf = true := by
  induction bs generalizing s a with
  | nil => exact h
  | cons b bs ih =>
    simp only [storeBytes, memWrite_eq]
    by_cases ha : a < 4096
    · simp only [if_pos ha]; exact ih _ _ (Memory.wf_set h ha)
    · simpa only [if_neg ha] using h

/-! ### Block load (rule R46) -/

/-- A block load changes general registers only. -/
theorem loadRegs_only_v (s : State) (a : Nat) (rs : List Reg) :
    (loadRegs s a rs).1 = { s with v := (loadRegs s a rs).1.v } := by
  induction rs generalizing s a with
  | nil => rfl
  | cons r rs ih =>
    simp only [loadRegs, memRead_eq]
    by_cases h : a < 4096
    · simp only [if_pos h]; exact ih _ _
    · simp only [if_neg h]

/-- A block load stops exactly when one of its addresses does not exist. -/
theorem loadRegs_stop (s : State) (a : Nat) (rs : List Reg) :
    (loadRegs s a rs).2 = if rs = [] ∨ a + rs.length ≤ 4096 then none else some .addressOutOfRange := by
  induction rs generalizing s a with
  | nil => rfl
  | cons r rs ih =>
    simp only [loadRegs, memRead_eq]
    by_cases h : a < 4096
    · simp only [if_pos h, ih, List.length_cons, reduceCtorEq, false_or]
      cases rs with
      | nil => simp; omega
      | cons c cs => simp [show a + 1 + (cs.length + 1) = a + (cs.length + 1 + 1) by omega]
    · simp only [if_neg h, List.length_cons, reduceCtorEq, false_or]
      rw [if_neg (by omega)]

/-- The registers after loading `n` consecutive ones from number `k` on. -/
theorem loadRegs_getV_range (s : State) (a k n : Nat) (hk : k + n ≤ 16) (q : Reg) :
    (loadRegs s a ((List.range' k n).map (BitVec.ofNat 4))).1.getV q
      = if k ≤ q.toNat ∧ q.toNat < k + n ∧ a + (q.toNat - k) < 4096 then s.byteAt (a + (q.toNat - k))
        else s.getV q := by
  induction n generalizing s a k with
  | zero => simp only [List.range'_zero, List.map_nil, loadRegs]; rw [if_neg (by omega)]
  | succ n ih =>
    simp only [List.range'_succ, List.map_cons, loadRegs, memRead_eq]
    by_cases h : a < 4096
    · simp only [if_pos h]
      rw [ih _ _ _ (by omega)]
      simp only [State.byteAt_setV, State.getV_setV]
      have hq : q = BitVec.ofNat 4 k ↔ q.toNat = k := by
        rw [← BitVec.toNat_inj, BitVec.toNat_ofNat, Nat.mod_eq_of_lt (by omega)]
      by_cases he : q.toNat = k
      · rw [if_neg (by omega), if_pos (hq.mpr he), if_pos (by omega)]; congr 1; omega
      · by_cases hin : k + 1 ≤ q.toNat ∧ q.toNat < k + 1 + n ∧ a + 1 + (q.toNat - (k + 1)) < 4096
        · rw [if_pos hin, if_pos (by omega)]; congr 1; omega
        · rw [if_neg hin, if_neg (fun h' => he (hq.mp h')), if_neg (by omega)]
    · simp only [if_neg h]; rw [if_neg (by omega)]

/-- The registers after a load of V0 to VX, complete or stopped. -/
theorem loadRegs_getV (s : State) (a : Nat) (x q : Reg) :
    (loadRegs s a (regsUpTo x)).1.getV q
      = if q.toNat ≤ x.toNat ∧ a + q.toNat < 4096 then s.byteAt (a + q.toNat) else s.getV q := by
  have hx := x.isLt
  rw [regsUpTo, List.range_eq_range', loadRegs_getV_range s a 0 (x.toNat + 1) (by omega) q]
  simp [Nat.lt_succ_iff]

@[simp] theorem regsUpTo_length (x : Reg) : (regsUpTo x).length = x.toNat + 1 := by simp [regsUpTo]

@[simp] theorem regsUpTo_ne_nil (x : Reg) : regsUpTo x ≠ [] := by
  intro h; simpa using congrArg List.length h

@[simp] theorem blockBytes_length (s : State) (x : Reg) : (s.blockBytes x).length = x.toNat + 1 := by
  simp [State.blockBytes]

@[simp] theorem blockBytes_ne_nil (s : State) (x : Reg) : s.blockBytes x ≠ [] := by
  intro h; simpa using congrArg List.length h

/-- Byte `k` of the block FX55 stores is register number `k`. -/
theorem blockBytes_getD (s : State) (x : Reg) (k : Nat) (h : k ≤ x.toNat) :
    (s.blockBytes x).getD k 0 = s.getV (BitVec.ofNat 4 k) := by
  simp [State.blockBytes, regsUpTo, List.getD, Nat.lt_succ_of_le h]

/-! ### Block read -/

/-- Reading `n` bytes: all of them in order, or AddressOutOfRange when one does not exist. -/
theorem readBytes_eq (s : State) (a n : Nat) :
    readBytes s a n = if n = 0 ∨ a + n ≤ 4096 then .ok ((List.range n).map fun k => s.byteAt (a + k))
      else .error .addressOutOfRange := by
  induction n generalizing a with
  | zero => rfl
  | succ n ih =>
    simp only [readBytes, memRead_eq]
    by_cases h : a < 4096
    · simp only [if_pos h, ih]
      by_cases hn : n = 0 ∨ a + 1 + n ≤ 4096
      · rw [if_pos hn, if_pos (by omega), List.range_succ_eq_map]
        simp [Nat.add_comm, Nat.add_left_comm]
      · rw [if_neg hn, if_neg (by omega)]
    · simp only [if_neg h]; rw [if_neg (by omega)]

/-! ### Fetch (rules R43, R81) -/

/-- Fetch: the two bytes at `pc` and `pc + 1`, high byte first, or AddressOutOfRange when one does not exist. -/
theorem fetch_eq (s : State) :
    fetch s = if s.pc.toNat + 1 < 4096 then .ok (s.byteAt s.pc.toNat ++ s.byteAt (s.pc.toNat + 1))
      else .error .addressOutOfRange := by
  simp only [fetch, memRead_eq, wordOfBytes]
  by_cases h : s.pc.toNat + 1 < 4096
  · simp [h, show s.pc.toNat < 4096 by omega]
  · rw [if_neg h, if_neg h]
    by_cases h' : s.pc.toNat < 4096
    · rw [if_pos h']
    · rw [if_neg h']

/-! ### Stack (rule R15) -/

theorem push_eq (s : State) (a : Word) :
    push s a = if s.sp < 16 then .ok { s with stack := a :: s.stack } else .error .stackOverflow := by
  unfold push Config.stackDepth
  by_cases h : s.sp < 16
  · rw [if_pos h, if_neg (by omega)]
  · rw [if_neg h, if_pos (by omega)]

/-! ### Timers (rule R213) -/

theorem tickByte_toNat (d : Byte) : (tickByte d).toNat = d.toNat - 1 := by
  have := d.isLt
  unfold tickByte
  split
  · simp_all
  · rename_i h
    have : d.toNat ≠ 0 := fun h' => h (BitVec.eq_of_toNat_eq h')
    rw [BitVec.toNat_sub_of_le (by rw [BitVec.le_def]; simp; omega)]; simp

/-! ### The index policy (rule R146) -/

/-- The index policy writes I only. -/
theorem indexAfterBlock_eq (s : State) (x : Reg) :
    s.indexAfterBlock x = { s with i := if s.quirks.memoryLeaveIUnchanged then s.i
      else if s.quirks.memoryIncrementByX then s.i + x.setWidth 16 else s.i + x.setWidth 16 + 1 } := by
  unfold State.indexAfterBlock State.setI
  split
  · simp [*]
  · split <;> simp [*]

/-! ### Ending a cycle -/

theorem orRaise_next {α : Type} {s t : State} {r : Except Condition α} {k : α → Outcome} :
    orRaise s r k = .next t ↔ ∃ a, r = .ok a ∧ k a = .next t := by
  cases r <;> simp [orRaise, raise]

theorem afterBlock_next {r : State × Option Condition} {k : State → State} {t : State} :
    afterBlock r k = .next t ↔ r.2 = none ∧ k r.1 = t := by
  obtain ⟨s, c⟩ := r
  cases c <;> simp [afterBlock, raise]

/-- The state a fatal condition leaves. -/
@[simp] theorem toFault_halted (c : Condition) (s : State) : (c.toFault s).halted = s := by cases c <;> rfl

/-- A fatal condition is never a next state. -/
theorem raise_ne_next (c : Condition) (s t : State) : raise c s ≠ .next t := by simp [raise]

/-- The fault a fatal condition is. -/
theorem raise_eq_fault {c : Condition} {s : State} {f : Fault} : raise c s = .fault f ↔ c.toFault (s.latch c) = f := by
  simp [raise]

/-- A halted machine's step is never a next state. -/
theorem stayHalted_ne_next (c : Condition) (s t : State) : stayHalted c s ≠ .next t := by simp [stayHalted]

/-- The fault a halted machine's step is. -/
theorem stayHalted_eq_fault {c : Condition} {s : State} {f : Fault} :
    stayHalted c s = .fault f ↔ c.toFault { s with proceed := false, command := none } = f := by
  simp [stayHalted]

/-- What a step can be: halted already; stopped at fetch; stopped at decode; or Execute of the decoded instruction. -/
theorem step_cases (s : State) :
    (∃ c, s.fault = some c ∧ step s = stayHalted c s) ∨
    (s.fault = none ∧ ∃ c, fetch s.beginCycle = .error c ∧ step s = raise c s.beginCycle) ∨
    (s.fault = none ∧ ∃ raw, fetch s.beginCycle = .ok raw ∧ decodeWord raw = none ∧
      step s = raise .unknownOpcode s.beginCycle) ∨
    (s.fault = none ∧ ∃ raw i, fetch s.beginCycle = .ok raw ∧ decodeWord raw = some i ∧
      step s = exec i s.beginCycle) := by
  unfold step
  cases hf : s.fault with
  | some c => exact .inl ⟨c, rfl, rfl⟩
  | none =>
    cases hr : fetch s.beginCycle with
    | error c => exact .inr (.inl ⟨rfl, c, rfl, rfl⟩)
    | ok raw =>
      cases hd : decodeWord raw with
      | none => exact .inr (.inr (.inl ⟨rfl, raw, rfl, hd, by simp [orRaise, hd]⟩))
      | some i => exact .inr (.inr (.inr ⟨rfl, raw, i, rfl, hd, by simp [orRaise, hd]⟩))

end Sys2Proof.Machine
end

