-- ==== Sys2Proof/WellFormed.lean ====
section
/-! DEFINITION. Well-formedness checks: of operands and instructions (spec/30_encoding.md rule R61), of an opcode table
(rules R62, R63, R66), of a program image and a font position (spec/70_reset_and_hazards.md rule R232,
spec/93_implementation_defined.md item I16). -/

namespace Sys2Proof

/-- An operand's number fits its field (rule R61). -/
def Operand.wellFormed (o : Operand) : Bool := decide (o.value < 2 ^ o.field.width)

/-- Every operand fits its field. The constructors' types give each field its width and every value of a field is
legal (rule R11, item I18), so every term of `Instr` passes: `Laws.instr_wellFormed`. -/
def Instr.wellFormed (i : Instr) : Bool := i.operands.all Operand.wellFormed

/-- A row of an opcode table fixes no bit outside its mask (the pattern is "the fixed-bit value", glossary of rule R8). -/
def rowWellFormed (pattern mask : Word) : Bool := pattern &&& ~~~mask == 0

/-- No word can match both rows: they differ in a bit that both masks fix (rule R66). -/
def rowsDisjoint (r₁ r₂ : Word × Word) : Bool := (r₁.1 ^^^ r₂.1) &&& (r₁.2 &&& r₂.2) != 0

/-- An opcode table as (pattern, mask) pairs: each row well-formed and all pairs disjoint; "overlapping matches are a
configuration defect" (rule R66, conflict C1). -/
def tableWellFormed : List (Word × Word) → Bool
  | [] => true
  | r :: rs => rowWellFormed r.1 r.2 && rs.all (rowsDisjoint r) && tableWellFormed rs

/-- A program image fits between the program origin and the end of Memory: at most 3584 bytes (rules R47, R232). -/
def romWellFormed (rom : List Byte) : Bool :=
  decide (Config.programOrigin.toNat + rom.length ≤ Config.memCapacity)

/-- The 80-byte font fits in Memory at this base (item I16). -/
def fontBaseWellFormed (base : Word) : Bool := decide (base.toNat + 79 < Config.memCapacity)

end Sys2Proof
end

