-- ==== Sys2Proof/Laws/Decode.lean ====
section
/-! SUPPORT. The laws of the decoder: the opcode table is well-formed, one row selects at most, and the row that selects
a word decodes it (spec/30_encoding.md rules R63, R66). -/

namespace Sys2Proof

/-- Every term of `Instr` passes the check: the constructors' types hold the widths (rule R61). -/
theorem Laws.instr_wellFormed (i : Instr) : i.wellFormed = true := by
  cases i <;> simp only [Instr.wellFormed, Instr.operands, Operand.wellFormed, FieldName.width, BitVec.isLt,
    List.all_cons, List.all_nil, decide_true, Bool.and_self]

/-- The (pattern, mask) pairs of the opcode table. -/
def opcodePairs : List (Word × Word) := opcodeTable.map fun r => (r.pattern, r.mask)

/-- The opcode table is well-formed: every pattern within its mask, all 561 pairs of rows disjoint (rule R66). -/
theorem opcodePairs_wellFormed : tableWellFormed opcodePairs = true := by decide

/-- Two rows that differ in a bit both fix select no word together (rule R66). -/
theorem not_both_select {r₁ r₂ : OpcodeRow} {w : Word}
    (h : rowsDisjoint (r₁.pattern, r₁.mask) (r₂.pattern, r₂.mask) = true) (h₁ : r₁.selects w = true) :
    r₂.selects w = false := by
  apply Bool.eq_false_iff.mpr
  intro h₂
  simp only [OpcodeRow.selects, beq_iff_eq] at h₁ h₂
  simp only [rowsDisjoint, bne_iff_ne] at h
  apply h
  rw [← h₁, ← h₂]
  ext k hk
  simp only [BitVec.getElem_and, BitVec.getElem_xor]
  rw [show (0 : Word)[k] = false from BitVec.getElem_zero hk]
  cases w[k] <;> cases r₁.mask[k] <;> cases r₂.mask[k] <;> rfl

/-- In a list of pairwise disjoint rows, the row that selects a word is the one a search finds. -/
theorem find_of_selects {rows : List OpcodeRow} {r : OpcodeRow} {w : Word}
    (hd : tableWellFormed (rows.map fun r => (r.pattern, r.mask)) = true) (hr : r ∈ rows) (hs : r.selects w = true) :
    rows.find? (fun r => r.selects w) = some r := by
  induction rows with
  | nil => cases hr
  | cons q rows ih =>
    simp only [List.map_cons, tableWellFormed, Bool.and_eq_true] at hd
    rcases List.mem_cons.mp hr with rfl | hr'
    · simp [hs]
    · have hq : q.selects w = false := by
        apply Bool.eq_false_iff.mpr
        intro hq
        have := List.all_eq_true.mp hd.1.2 _ (List.mem_map_of_mem hr')
        simp [not_both_select this hq] at hs
      simp [hq, ih hd.2 hr']

/-- Decoding by the row that selects the word, whichever place it has in the table (rules R63, R89). -/
theorem decodeWord_of_selects {r : OpcodeRow} {w : Word}
    (hr : r ∈ opcodeTable) (hs : r.selects w = true) : decodeWord w = some (r.build w) := by
  unfold decodeWord
  rw [find_of_selects opcodePairs_wellFormed hr hs]
  rfl

/-- Decoding by the number of the selecting row in the table, counted from 0. -/
theorem decodeWord_of_row (k : Fin 34) {w : Word} (hs : (opcodeTable[k.val]'(k.isLt.trans_le (by decide))).selects w = true) :
    decodeWord w = some ((opcodeTable[k.val]'(k.isLt.trans_le (by decide))).build w) :=
  decodeWord_of_selects (List.getElem_mem _) hs

/-- A word that decodes is selected by a row of the table, which builds the instruction. -/
theorem decodeWord_some {w : Word} {i : Instr} (h : decodeWord w = some i) :
    ∃ r ∈ opcodeTable, r.selects w = true ∧ r.build w = i := by
  unfold decodeWord at h
  obtain ⟨r, hr, rfl⟩ := Option.map_eq_some_iff.mp h
  exact ⟨r, List.mem_of_find?_eq_some hr, by simpa using List.find?_some hr, rfl⟩

/-- A word is illegal exactly when no row selects it (rule R67). -/
theorem decodeWord_none {w : Word} : decodeWord w = none ↔ ∀ r ∈ opcodeTable, r.selects w = false := by
  simp [decodeWord]

/-! ### The fields of a word put together from its parts (rules R61, R62) -/

theorem fieldNNN_append (o : Nibble) (a : Addr12) : fieldNNN (o ++ a) = a := BitVec.extractLsb'_append_eq_right

theorem fieldNN_append (o x : Nibble) (b : Byte) : fieldNN (o ++ x ++ b) = b := BitVec.extractLsb'_append_eq_right

theorem fieldX_append (o x : Nibble) (b : Byte) : fieldX (o ++ x ++ b) = x :=
  (BitVec.extractLsb'_append_eq_of_le (by omega)).trans BitVec.extractLsb'_append_eq_right

theorem fieldX_append_nibbles (o x y n : Nibble) : fieldX (o ++ x ++ y ++ n) = x :=
  (BitVec.extractLsb'_append_eq_of_le (by omega)).trans
    ((BitVec.extractLsb'_append_eq_of_le (by omega)).trans BitVec.extractLsb'_append_eq_right)

theorem fieldY_append (o x y n : Nibble) : fieldY (o ++ x ++ y ++ n) = y :=
  (BitVec.extractLsb'_append_eq_of_le (by omega)).trans BitVec.extractLsb'_append_eq_right

theorem fieldN_append (o x y n : Nibble) : fieldN (o ++ x ++ y ++ n) = n := BitVec.extractLsb'_append_eq_right

end Sys2Proof
end

