-- ==== Sys2Proof/Laws/PerInstr.lean ====
section
/-! SUPPORT. Statements for all instructions, made per instruction. Family `OwnRow`: an instruction's word has the fixed
bits of its own row of the opcode map (spec/30_encoding.md rules R62, R65). -/

namespace Sys2Proof

/-- The row of the opcode map that stands for an instruction (rule R65). -/
def ownRow : Instr → Word × Word
  | .cls => (0x00E0, 0xFFFF)
  | .ret => (0x00EE, 0xFFFF)
  | .jp _ => (0x1000, 0xF000)
  | .call _ => (0x2000, 0xF000)
  | .seImm _ _ => (0x3000, 0xF000)
  | .sneImm _ _ => (0x4000, 0xF000)
  | .seReg _ _ => (0x5000, 0xF00F)
  | .ldImm _ _ => (0x6000, 0xF000)
  | .addImm _ _ => (0x7000, 0xF000)
  | .ldReg _ _ => (0x8000, 0xF00F)
  | .orReg _ _ => (0x8001, 0xF00F)
  | .andReg _ _ => (0x8002, 0xF00F)
  | .xorReg _ _ => (0x8003, 0xF00F)
  | .addReg _ _ => (0x8004, 0xF00F)
  | .subReg _ _ => (0x8005, 0xF00F)
  | .shr _ _ => (0x8006, 0xF00F)
  | .subnReg _ _ => (0x8007, 0xF00F)
  | .shl _ _ => (0x800E, 0xF00F)
  | .sneReg _ _ => (0x9000, 0xF00F)
  | .ldI _ => (0xA000, 0xF000)
  | .jpV0 _ => (0xB000, 0xF000)
  | .rnd _ _ => (0xC000, 0xF000)
  | .drw _ _ _ => (0xD000, 0xF000)
  | .skp _ => (0xE09E, 0xF0FF)
  | .sknp _ => (0xE0A1, 0xF0FF)
  | .ldVxDt _ => (0xF007, 0xF0FF)
  | .ldVxK _ => (0xF00A, 0xF0FF)
  | .ldDtVx _ => (0xF015, 0xF0FF)
  | .ldStVx _ => (0xF018, 0xF0FF)
  | .addI _ => (0xF01E, 0xF0FF)
  | .ldF _ => (0xF029, 0xF0FF)
  | .ldB _ => (0xF033, 0xF0FF)
  | .stRegs _ => (0xF055, 0xF0FF)
  | .ldRegs _ => (0xF065, 0xF0FF)

/-- The fixed bits of the instruction's word are its own row's pattern. -/
def Laws.OwnRow.Statement (i : Instr) : Prop := encode i &&& (ownRow i).2 = (ownRow i).1

theorem Laws.OwnRow.and_F (o : BitVec 4) : o &&& 15#4 = o := BitVec.and_allOnes

theorem Laws.OwnRow.and_FF (o : BitVec 8) : o &&& 255#8 = o := BitVec.and_allOnes

theorem Laws.OwnRow.and_NNN (o : BitVec 4) (a : BitVec 12) : (o ++ a) &&& 0xF000#16 = o ++ 0#12 := by
  rw [show (0xF000#16) = 0xF#4 ++ 0#12 from rfl, BitVec.and_append]
  simp only [Laws.OwnRow.and_F, BitVec.and_zero]

theorem Laws.OwnRow.and_XNN (o x : BitVec 4) (b : BitVec 8) : (o ++ x ++ b) &&& 0xF000#16 = o ++ 0#4 ++ 0#8 := by
  rw [show (0xF000#16) = 0xF#4 ++ 0#4 ++ 0#8 from rfl, BitVec.and_append, BitVec.and_append]
  simp only [Laws.OwnRow.and_F, BitVec.and_zero]

theorem Laws.OwnRow.and_XY (o x y l : BitVec 4) : (o ++ x ++ y ++ l) &&& 0xF00F#16 = o ++ 0#4 ++ 0#4 ++ l := by
  rw [show (0xF00F#16) = 0xF#4 ++ 0#4 ++ 0#4 ++ 0xF#4 from rfl, BitVec.and_append, BitVec.and_append, BitVec.and_append]
  simp only [Laws.OwnRow.and_F, BitVec.and_zero]

theorem Laws.OwnRow.and_XYN (o x y n : BitVec 4) : (o ++ x ++ y ++ n) &&& 0xF000#16 = o ++ 0#4 ++ 0#4 ++ 0#4 := by
  rw [show (0xF000#16) = 0xF#4 ++ 0#4 ++ 0#4 ++ 0#4 from rfl, BitVec.and_append, BitVec.and_append, BitVec.and_append]
  simp only [Laws.OwnRow.and_F, BitVec.and_zero]

theorem Laws.OwnRow.and_X (o x : BitVec 4) (l : BitVec 8) : (o ++ x ++ l) &&& 0xF0FF#16 = o ++ 0#4 ++ l := by
  rw [show (0xF0FF#16) = 0xF#4 ++ 0#4 ++ 0xFF#8 from rfl, BitVec.and_append, BitVec.and_append]
  simp only [Laws.OwnRow.and_F, Laws.OwnRow.and_FF, BitVec.and_zero]

namespace Laws.OwnRow

theorem cls : Statement .cls := rfl
theorem ret : Statement .ret := rfl
theorem jp (nnn : Addr12) : Statement (.jp nnn) := and_NNN 0x1 nnn
theorem call (nnn : Addr12) : Statement (.call nnn) := and_NNN 0x2 nnn
theorem seImm (x : Reg) (nn : Byte) : Statement (.seImm x nn) := and_XNN 0x3 x nn
theorem sneImm (x : Reg) (nn : Byte) : Statement (.sneImm x nn) := and_XNN 0x4 x nn
theorem seReg (x y : Reg) : Statement (.seReg x y) := and_XY 0x5 x y 0x0
theorem ldImm (x : Reg) (nn : Byte) : Statement (.ldImm x nn) := and_XNN 0x6 x nn
theorem addImm (x : Reg) (nn : Byte) : Statement (.addImm x nn) := and_XNN 0x7 x nn
theorem ldReg (x y : Reg) : Statement (.ldReg x y) := and_XY 0x8 x y 0x0
theorem orReg (x y : Reg) : Statement (.orReg x y) := and_XY 0x8 x y 0x1
theorem andReg (x y : Reg) : Statement (.andReg x y) := and_XY 0x8 x y 0x2
theorem xorReg (x y : Reg) : Statement (.xorReg x y) := and_XY 0x8 x y 0x3
theorem addReg (x y : Reg) : Statement (.addReg x y) := and_XY 0x8 x y 0x4
theorem subReg (x y : Reg) : Statement (.subReg x y) := and_XY 0x8 x y 0x5
theorem shr (x y : Reg) : Statement (.shr x y) := and_XY 0x8 x y 0x6
theorem subnReg (x y : Reg) : Statement (.subnReg x y) := and_XY 0x8 x y 0x7
theorem shl (x y : Reg) : Statement (.shl x y) := and_XY 0x8 x y 0xE
theorem sneReg (x y : Reg) : Statement (.sneReg x y) := and_XY 0x9 x y 0x0
theorem ldI (nnn : Addr12) : Statement (.ldI nnn) := and_NNN 0xA nnn
theorem jpV0 (nnn : Addr12) : Statement (.jpV0 nnn) := and_NNN 0xB nnn
theorem rnd (x : Reg) (nn : Byte) : Statement (.rnd x nn) := and_XNN 0xC x nn
theorem drw (x y : Reg) (n : Nibble) : Statement (.drw x y n) := and_XYN 0xD x y n
theorem skp (x : Reg) : Statement (.skp x) := and_X 0xE x 0x9E
theorem sknp (x : Reg) : Statement (.sknp x) := and_X 0xE x 0xA1
theorem ldVxDt (x : Reg) : Statement (.ldVxDt x) := and_X 0xF x 0x07
theorem ldVxK (x : Reg) : Statement (.ldVxK x) := and_X 0xF x 0x0A
theorem ldDtVx (x : Reg) : Statement (.ldDtVx x) := and_X 0xF x 0x15
theorem ldStVx (x : Reg) : Statement (.ldStVx x) := and_X 0xF x 0x18
theorem addI (x : Reg) : Statement (.addI x) := and_X 0xF x 0x1E
theorem ldF (x : Reg) : Statement (.ldF x) := and_X 0xF x 0x29
theorem ldB (x : Reg) : Statement (.ldB x) := and_X 0xF x 0x33
theorem stRegs (x : Reg) : Statement (.stRegs x) := and_X 0xF x 0x55
theorem ldRegs (x : Reg) : Statement (.ldRegs x) := and_X 0xF x 0x65

end Laws.OwnRow

end Sys2Proof
end

