-- ==== Sys2Proof/Machine/Trace.lean ====
section
/-! DEFINITION. The trace output (spec/60_exceptions.md rule R217): the mnemonic of the instruction at `pc` with its
decoded operands, in the syntax of spec/30_encoding.md rule R70. Pure: it changes no state. -/

namespace Sys2Proof.Machine

/-- A hexadecimal digit. -/
def hexDigit (d : Nibble) : String :=
  ["0", "1", "2", "3", "4", "5", "6", "7", "8", "9", "A", "B", "C", "D", "E", "F"].getD d.toNat "0"

/-- The name of a general register, V and its hexadecimal digit (spec/10_state.md rule R11). -/
def regName (r : Reg) : String := "V" ++ hexDigit r

/-- A 4-bit immediate (rule R70; log 17 for the number of digits). -/
def hexN (n : Nibble) : String := "0x" ++ hexDigit n

/-- An 8-bit immediate (rule R70, log 17). -/
def hexNN (b : Byte) : String := "0x" ++ hexDigit (b.extractLsb' 4 4) ++ hexDigit (b.extractLsb' 0 4)

/-- A 12-bit address (rule R70, log 17). -/
def hexNNN (a : Addr12) : String :=
  "0x" ++ hexDigit (a.extractLsb' 8 4) ++ hexDigit (a.extractLsb' 4 4) ++ hexDigit (a.extractLsb' 0 4)

/-- An instruction in the assembler syntax of rule R70, destination first. -/
def instrText : Instr → String
  | .cls => "CLS"
  | .ret => "RET"
  | .jp nnn => "JP " ++ hexNNN nnn
  | .call nnn => "CALL " ++ hexNNN nnn
  | .seImm x nn => "SE " ++ regName x ++ ", " ++ hexNN nn
  | .sneImm x nn => "SNE " ++ regName x ++ ", " ++ hexNN nn
  | .seReg x y => "SE " ++ regName x ++ ", " ++ regName y
  | .ldImm x nn => "LD " ++ regName x ++ ", " ++ hexNN nn
  | .addImm x nn => "ADD " ++ regName x ++ ", " ++ hexNN nn
  | .ldReg x y => "LD " ++ regName x ++ ", " ++ regName y
  | .orReg x y => "OR " ++ regName x ++ ", " ++ regName y
  | .andReg x y => "AND " ++ regName x ++ ", " ++ regName y
  | .xorReg x y => "XOR " ++ regName x ++ ", " ++ regName y
  | .addReg x y => "ADD " ++ regName x ++ ", " ++ regName y
  | .subReg x y => "SUB " ++ regName x ++ ", " ++ regName y
  | .shr x y => "SHR " ++ regName x ++ ", " ++ regName y
  | .subnReg x y => "SUBN " ++ regName x ++ ", " ++ regName y
  | .shl x y => "SHL " ++ regName x ++ ", " ++ regName y
  | .sneReg x y => "SNE " ++ regName x ++ ", " ++ regName y
  | .ldI nnn => "LD I, " ++ hexNNN nnn
  | .jpV0 nnn => "JP V0, " ++ hexNNN nnn
  | .rnd x nn => "RND " ++ regName x ++ ", " ++ hexNN nn
  | .drw x y n => "DRW " ++ regName x ++ ", " ++ regName y ++ ", " ++ hexN n
  | .skp x => "SKP " ++ regName x
  | .sknp x => "SKNP " ++ regName x
  | .ldVxDt x => "LD " ++ regName x ++ ", DT"
  | .ldVxK x => "LD " ++ regName x ++ ", K"
  | .ldDtVx x => "LD DT, " ++ regName x
  | .ldStVx x => "LD ST, " ++ regName x
  | .addI x => "ADD I, " ++ regName x
  | .ldF x => "LD F, " ++ regName x
  | .ldB x => "LD B, " ++ regName x
  | .stRegs x => "LD [I], " ++ regName x
  | .ldRegs x => "LD " ++ regName x ++ ", [I]"

/-- The trace output: the text of the instruction at `pc`, none where no word can be fetched or the word is illegal
(rule R217; a function of the word alone, rule R83). -/
def State.trace (s : State) : Option String :=
  match fetch s with
  | .ok raw => (decodeWord raw).map instrText
  | .error _ => none

end Sys2Proof.Machine
end

