-- ==== Sys2Proof/Certificates/Slice0/Obligations.lean ====
section
/-! DEFINITION. The statements for the provers. Each docstring names the rule of spec/ it formalises. A statement that
completes an instruction says so for EVERY state and operand that meet its hypotheses. -/

open Sys2Proof Sys2Proof.Machine

/-! ### Register load, arithmetic and logic (spec/41_alu.md) -/

/-- Rules R100, R101, R102: 6XNN, 7XNN, 8XY0 complete in every state; VF is no flag. -/
def Obligations.LoadAndAddImmediateResults : Prop :=
  ∀ (s : State) (x y : Reg) (nn : Byte),
    (WordOf (.ldImm x nn) (0x6#4 ++ x ++ nn) ∧ WritesReg s (exec (.ldImm x nn) s) x nn) ∧
    (WordOf (.addImm x nn) (0x7#4 ++ x ++ nn) ∧
      WritesReg s (exec (.addImm x nn) s) x (.ofNat 8 (((s.getV x).toNat + nn.toNat) % 256))) ∧
    (WordOf (.ldReg x y) (0x8#4 ++ x ++ y ++ 0x0#4) ∧ WritesReg s (exec (.ldReg x y) s) x (s.getV y))

/-- Rules R103, R104, R105: 8XY1, 8XY2, 8XY3 complete in every state; VF is no flag. -/
def Obligations.LogicResults : Prop :=
  ∀ (s : State) (x y : Reg),
    (WordOf (.orReg x y) (0x8#4 ++ x ++ y ++ 0x1#4) ∧ WritesReg s (exec (.orReg x y) s) x (s.getV x ||| s.getV y)) ∧
    (WordOf (.andReg x y) (0x8#4 ++ x ++ y ++ 0x2#4) ∧ WritesReg s (exec (.andReg x y) s) x (s.getV x &&& s.getV y)) ∧
    (WordOf (.xorReg x y) (0x8#4 ++ x ++ y ++ 0x3#4) ∧ WritesReg s (exec (.xorReg x y) s) x (s.getV x ^^^ s.getV y))

/-- Rule R106: 8XY4, the sum modulo 256 and then the carry in VF, from the register values before. -/
def Obligations.AddWithCarryResult : Prop :=
  ∀ (s : State) (x y : Reg),
    WordOf (.addReg x y) (0x8#4 ++ x ++ y ++ 0x4#4) ∧
    WritesRegFlag s (exec (.addReg x y) s) x (.ofNat 8 (((s.getV x).toNat + (s.getV y).toNat) % 256))
      (if 255 < (s.getV x).toNat + (s.getV y).toNat then 1 else 0)

/-- Rules R107, R109: 8XY5 and 8XY7, the difference as the rule's exact arithmetic gives it, and then VF = 1 when no
borrow occurs, equality included. -/
def Obligations.SubtractResults : Prop :=
  ∀ (s : State) (x y : Reg),
    let a := (s.getV x).toNat
    let b := (s.getV y).toNat
    (WordOf (.subReg x y) (0x8#4 ++ x ++ y ++ 0x5#4) ∧
      WritesRegFlag s (exec (.subReg x y) s) x (.ofNat 8 (if a ≥ b then a - b else a + 256 - b))
        (if a ≥ b then 1 else 0)) ∧
    (WordOf (.subnReg x y) (0x8#4 ++ x ++ y ++ 0x7#4) ∧
      WritesRegFlag s (exec (.subnReg x y) s) x (.ofNat 8 (if b ≥ a then b - a else b + 256 - a))
        (if b ≥ a then 1 else 0))

/-- Rules R108, R110: 8XY6 and 8XYE on the operand the quirk picks, the flag the bit shifted out. -/
def Obligations.ShiftResults : Prop :=
  ∀ (s : State) (x y : Reg),
    let t := (if s.quirks.shiftInPlace = true then s.getV x else s.getV y).toNat
    (WordOf (.shr x y) (0x8#4 ++ x ++ y ++ 0x6#4) ∧
      WritesRegFlag s (exec (.shr x y) s) x (.ofNat 8 (t / 2)) (if t % 2 = 1 then 1 else 0)) ∧
    (WordOf (.shl x y) (0x8#4 ++ x ++ y ++ 0xE#4) ∧
      WritesRegFlag s (exec (.shl x y) s) x (.ofNat 8 (t * 2 % 256)) (if 128 ≤ t then 1 else 0))

/-! ### Control transfer (spec/42_control.md) -/

/-- Rule R120: 1NNN goes to NNN; a jump to its own address leaves the state as it is. -/
def Obligations.JumpGoesToItsTarget : Prop :=
  ∀ (s : State) (nnn : Addr12),
    WordOf (.jp nnn) (0x1#4 ++ nnn) ∧
    (∃ t, exec (.jp nnn) s = .next t ∧ t.pc.toNat = nnn.toNat ∧ OnlyPc s t) ∧
    (s.pc.toNat = nnn.toNat → exec (.jp nnn) s = .next s)

/-- Rule R123: BNNN goes to NNN plus V0, or plus VX under the quirk, the exact sum, never reduced. -/
def Obligations.JumpWithOffsetGoesToTheExactSum : Prop :=
  ∀ (s : State) (x : Nibble) (nn : Byte),
    WordOf (.jpV0 (x ++ nn)) (0xB#4 ++ x ++ nn) ∧
    ∃ t, exec (.jpV0 (x ++ nn)) s = .next t ∧
      t.pc.toNat = x.toNat * 256 + nn.toNat + (if s.quirks.jumpUsesVX = true then s.getV x else s.getV 0).toNat ∧
      OnlyPc s t

/-- Rules R121, R202: 2NNN below 16 entries pushes `pc + 2` and goes to NNN; at 16 it halts with StackOverflow and
nothing changed. -/
def Obligations.CallPushesTheReturnAddress : Prop :=
  ∀ (s : State) (nnn : Addr12),
    WordOf (.call nnn) (0x2#4 ++ nnn) ∧
    (s.sp < 16 → ∃ t, exec (.call nnn) s = .next t ∧ t.sp = s.sp + 1 ∧ t.stackEntry s.sp = some (s.pc + 2) ∧
      (∀ k, k < s.sp → t.stackEntry k = s.stackEntry k) ∧ t.pc.toNat = nnn.toNat ∧ OnlyStackPc s t) ∧
    (s.sp = 16 → Halts s (exec (.call nnn) s) .stackOverflow)

/-- Rules R122, R203: 00EE goes to the newest entry and drops it; on an empty stack it halts with StackUnderflow and
nothing changed. -/
def Obligations.ReturnPopsTheNewestEntry : Prop :=
  ∀ s : State,
    WordOf .ret 0x00EE ∧
    (∀ a, s.sp ≠ 0 → s.stackEntry (s.sp - 1) = some a → ∃ t, exec .ret s = .next t ∧ t.pc = a ∧ t.sp = s.sp - 1 ∧
      (∀ k, k < s.sp - 1 → t.stackEntry k = s.stackEntry k) ∧ OnlyStackPc s t) ∧
    (s.sp = 0 → Halts s (exec .ret s) .stackUnderflow)

/-- From rules R121 and R122 (decision D5): a call and the return from it continue after the call with the stack as it
was, whatever the subroutine did to the other components. -/
def Obligations.ReturnContinuesAfterTheCall : Prop :=
  ∀ (s t u : State) (nnn : Addr12), exec (.call nnn) s = .next t → u.stack = t.stack →
    ∃ w, exec .ret u = .next w ∧ w.pc = s.pc + 2 ∧ w.stack = s.stack

/-- Rules R124 to R127: the four skips on registers go to `pc + 4` or `pc + 2`, and change nothing else. -/
def Obligations.RegisterSkips : Prop :=
  ∀ (s : State) (x y : Reg) (nn : Byte),
    (WordOf (.seImm x nn) (0x3#4 ++ x ++ nn) ∧
      GoesTo s (exec (.seImm x nn) s) (if s.getV x = nn then s.pc + 4 else s.pc + 2)) ∧
    (WordOf (.sneImm x nn) (0x4#4 ++ x ++ nn) ∧
      GoesTo s (exec (.sneImm x nn) s) (if s.getV x ≠ nn then s.pc + 4 else s.pc + 2)) ∧
    (WordOf (.seReg x y) (0x5#4 ++ x ++ y ++ 0x0#4) ∧
      GoesTo s (exec (.seReg x y) s) (if s.getV x = s.getV y then s.pc + 4 else s.pc + 2)) ∧
    (WordOf (.sneReg x y) (0x9#4 ++ x ++ y ++ 0x0#4) ∧
      GoesTo s (exec (.sneReg x y) s) (if s.getV x ≠ s.getV y then s.pc + 4 else s.pc + 2))

/-! ### Index register and memory (spec/43_index_memory.md) -/

/-- Rules R140, R141, R142: ANNN, FX1E, FX29 give I its number, modulo 2^16, and write no flag. -/
def Obligations.IndexRegisterResults : Prop :=
  ∀ (s : State) (x : Reg) (nnn : Addr12),
    (WordOf (.ldI nnn) (0xA#4 ++ nnn) ∧ WritesIndex s (exec (.ldI nnn) s) nnn.toNat) ∧
    (WordOf (.addI x) (0xF#4 ++ x ++ 0x1E#8) ∧
      WritesIndex s (exec (.addI x) s) ((s.i.toNat + (s.getV x).toNat) % 65536)) ∧
    (WordOf (.ldF x) (0xF#4 ++ x ++ 0x29#8) ∧
      WritesIndex s (exec (.ldF x) s) ((s.fontBase.toNat + 5 * ((s.getV x).toNat % 16)) % 65536))

/-- Rule R143: FX33 stores the three digits at I, I + 1, I + 2 and leaves I; with one of them at 4096 or above it halts
with AddressOutOfRange, the digits at addresses that exist written, `pc` and I unchanged. -/
def Obligations.DecimalDigitsAreStored : Prop :=
  ∀ (s : State) (x : Reg),
    let v := (s.getV x).toNat
    let digit : Nat → Byte := fun k => .ofNat 8 (if k = 0 then v / 100 else if k = 1 then v / 10 % 10 else v % 10)
    WordOf (.ldB x) (0xF#4 ++ x ++ 0x33#8) ∧
    (s.effAddr 2 < 4096 → ∃ t, exec (.ldB x) s = .next t ∧
      (∀ k, k < 3 → t.byteAt (s.effAddr k) = digit k) ∧
      (∀ a, ¬ inBlock (s.effAddr 0) 3 a → t.byteAt a = s.byteAt a) ∧
      t.i = s.i ∧ t.pc = s.pc + 2 ∧ OnlyMemIndexPc s t) ∧
    (4096 ≤ s.effAddr 2 → ∃ u, exec (.ldB x) s = .fault (.addressOutOfRange u) ∧
      (∀ k, k < 3 → s.effAddr k < 4096 → u.byteAt (s.effAddr k) = digit k) ∧
      (∀ a, ¬ (inBlock (s.effAddr 0) 3 a ∧ a < 4096) → u.byteAt a = s.byteAt a) ∧
      u = { s with mem := u.mem, fault := some .addressOutOfRange, proceed := false })

/-- Rules R144, R146: FX55 stores V0 to VX at I upward and then applies the index policy; a block that leaves Memory
halts with the bytes at addresses that exist written, `pc` and I unchanged. -/
def Obligations.BlockStoreResult : Prop :=
  ∀ (s : State) (x : Reg),
    WordOf (.stRegs x) (0xF#4 ++ x ++ 0x55#8) ∧
    (s.effAddr x.toNat < 4096 → ∃ t, exec (.stRegs x) s = .next t ∧
      (∀ k : Reg, k.toNat ≤ x.toNat → t.byteAt (s.effAddr k.toNat) = s.getV k) ∧
      (∀ a, ¬ inBlock (s.effAddr 0) (x.toNat + 1) a → t.byteAt a = s.byteAt a) ∧
      IndexPolicy s t x ∧ t.pc = s.pc + 2 ∧ OnlyMemIndexPc s t) ∧
    (4096 ≤ s.effAddr x.toNat → ∃ u, exec (.stRegs x) s = .fault (.addressOutOfRange u) ∧
      (∀ k : Reg, k.toNat ≤ x.toNat → s.effAddr k.toNat < 4096 → u.byteAt (s.effAddr k.toNat) = s.getV k) ∧
      (∀ a, ¬ (inBlock (s.effAddr 0) (x.toNat + 1) a ∧ a < 4096) → u.byteAt a = s.byteAt a) ∧
      u = { s with mem := u.mem, fault := some .addressOutOfRange, proceed := false })

/-- Rules R145, R146: FX65 loads V0 to VX from I upward, leaves the registers above, and then applies the index policy;
a block that leaves Memory halts with the registers of addresses that exist loaded, `pc` and I unchanged. -/
def Obligations.BlockLoadResult : Prop :=
  ∀ (s : State) (x : Reg),
    WordOf (.ldRegs x) (0xF#4 ++ x ++ 0x65#8) ∧
    (s.effAddr x.toNat < 4096 → ∃ t, exec (.ldRegs x) s = .next t ∧
      (∀ q : Reg, t.getV q = if q.toNat ≤ x.toNat then s.byteAt (s.effAddr q.toNat) else s.getV q) ∧
      IndexPolicy s t x ∧ t.pc = s.pc + 2 ∧ OnlyRegsIndexPc s t) ∧
    (4096 ≤ s.effAddr x.toNat → ∃ u, exec (.ldRegs x) s = .fault (.addressOutOfRange u) ∧
      (∀ q : Reg, u.getV q = if q.toNat ≤ x.toNat ∧ s.effAddr q.toNat < 4096 then s.byteAt (s.effAddr q.toNat)
        else s.getV q) ∧
      u = { s with v := u.v, fault := some .addressOutOfRange, proceed := false })

/-- Rule R146: a block transfer that succeeds leaves I as the quirks say, and with MemoryLeaveIunchanged the other quirk has
no effect; one that fails leaves I. -/
def Obligations.BlockTransfersApplyTheIndexPolicy : Prop :=
  ∀ (s : State) (x : Reg) (i : Instr), i = .stRegs x ∨ i = .ldRegs x →
    (∀ t, exec i s = .next t →
      (s.quirks.memoryLeaveIUnchanged = true → t.i = s.i) ∧
      (s.quirks.memoryLeaveIUnchanged = false → s.quirks.memoryIncrementByX = true →
        t.i.toNat = (s.i.toNat + x.toNat) % 65536) ∧
      (s.quirks.memoryLeaveIUnchanged = false → s.quirks.memoryIncrementByX = false →
        t.i.toNat = (s.i.toNat + x.toNat + 1) % 65536)) ∧
    ∀ f, exec i s = .fault f → f.halted.i = s.i

/-- From rules R53, R43 and R144: the bytes FX55 stored are the word that the next fetch reads where `pc` points
into the block, the lower register in the high byte. -/
def Obligations.StoredRegistersAreFetched : Prop :=
  ∀ (s t : State) (x k : Reg), exec (.stRegs x) s = .next t → k.toNat < x.toNat →
    fetch (t.setPc (s.i + k.setWidth 16)) = .ok (s.getV k ++ s.getV (k + 1))

/-! ### Timers (spec/44_timers.md, spec/60_exceptions.md) -/

/-- Rules R160, R161, R162: FX07, FX15, FX18 complete in every state. -/
def Obligations.TimerInstructionResults : Prop :=
  ∀ (s : State) (x : Reg),
    (WordOf (.ldVxDt x) (0xF#4 ++ x ++ 0x07#8) ∧ WritesReg s (exec (.ldVxDt x) s) x s.dt) ∧
    (WordOf (.ldDtVx x) (0xF#4 ++ x ++ 0x15#8) ∧ ∃ t, exec (.ldDtVx x) s = .next t ∧ t.dt = s.getV x ∧
      t.pc = s.pc + 2 ∧ t = { s with dt := t.dt, pc := t.pc } ∧ ∀ a, t.byteAt a = s.byteAt a) ∧
    (WordOf (.ldStVx x) (0xF#4 ++ x ++ 0x18#8) ∧ ∃ t, exec (.ldStVx x) s = .next t ∧ t.st = s.getV x ∧
      t.pc = s.pc + 2 ∧ (t.soundActive = true ↔ s.getV x ≠ 0) ∧ t = { s with st := t.st, pc := t.pc } ∧
      ∀ a, t.byteAt a = s.byteAt a)

/-- From rules R213, R214: a tick counts both timers down by one, stopping at zero, and changes nothing else; `n` ticks count
down by `n`; the sound output follows ST. -/
def Obligations.TimerTickCountsDown : Prop :=
  (∀ s : State, s.timerTick.dt.toNat = s.dt.toNat - 1 ∧ s.timerTick.st.toNat = s.st.toNat - 1 ∧
    s.timerTick = { s with dt := s.timerTick.dt, st := s.timerTick.st } ∧
    (s.soundActive = true ↔ s.st.toNat ≠ 0)) ∧
  (∀ (n : Nat) (s : State), (State.timerTick^[n] s).dt.toNat = s.dt.toNat - n ∧
    (State.timerTick^[n] s).st.toNat = s.st.toNat - n) ∧
  ∀ (n : Nat) (d : Byte), (tickTimes n d).toNat = d.toNat - n

/-- From rule R213 (the place of the ticks in the cycle is the model's, log 3): a tick in a running cycle's supply is the
host's TimerTick before that cycle. -/
def Obligations.TicksBeforeACycleAreTimerTicks : Prop :=
  ∀ (s : State) (h : HostSample) (n : Nat), s.fault = none →
    stepWith { h with ticks := n + 1 } s = stepWith { h with ticks := n } s.timerTick

/-! ### Device instructions (spec/45_devices.md) -/

/-- From rule R171: 00E0 sends one DisplayClear and advances, in every state; and from rule R178, with the device in State
(the model's choice, log 10): a reference display goes blank, its ready level as it was, a black box stays one. -/
def Obligations.ClearScreenSendsOneCommand : Prop :=
  ∀ s : State,
    WordOf .cls 0x00E0 ∧
    ∃ t, exec .cls s = .next t ∧ t.command = some .clear ∧ t.pc = s.pc + 2 ∧
      t = { s with command := t.command, display := t.display, pc := t.pc } ∧
      (s.display = .external → t.display = .external) ∧
      (∀ fb ready, s.display = .reference fb ready → ∃ fb', t.display = .reference fb' ready ∧
        ∀ r c, fb'.pixel r c = false) ∧
      ∀ a, t.byteAt a = s.byteAt a

/-- From rule R172: DXYN is a wait cycle when held; else with its rows inside Memory (or none) it sends one DisplayDraw with
the register values and the N bytes at I, and VF takes the display's answer; else it halts with AddressOutOfRange, nothing
sent and nothing written. From rules R170 and R178, with the device in State (the model's choice, log 10): a black box
answers the sampled bit and stays one; a reference display answers its own collision, holds the drawn framebuffer and is no
longer ready. -/
def Obligations.DrawSendsTheSprite : Prop :=
  ∀ (s : State) (x y : Reg) (n : Nibble),
    let held := s.quirks.displayWait = true ∧ s.ports.dispReady = false
    let rows := (List.range n.toNat).map fun k => s.byteAt (s.effAddr k)
    WordOf (.drw x y n) (0xD#4 ++ x ++ y ++ n) ∧
    (held → exec (.drw x y n) s = .next { s with proceed := false }) ∧
    (¬ held → (n = 0 ∨ s.effAddr n.toNat ≤ 4096) → ∃ t, exec (.drw x y n) s = .next t ∧
      t.command = some (.draw (s.getV x) (s.getV y) rows) ∧
      (∀ q, t.getV q = if q = 0xF then (if s.collisionAnswer (s.getV x) (s.getV y) rows then 1 else 0) else s.getV q) ∧
      (s.display = .external → s.collisionAnswer (s.getV x) (s.getV y) rows = s.ports.collision ∧
        t.display = .external) ∧
      (∀ fb ready, s.display = .reference fb ready →
        s.collisionAnswer (s.getV x) (s.getV y) rows = (fb.draw (s.getV x) (s.getV y) rows).2 ∧
        t.display = .reference (fb.draw (s.getV x) (s.getV y) rows).1 false) ∧
      t.pc = s.pc + 2 ∧
      t = { s with v := t.v, command := t.command, display := t.display, pc := t.pc } ∧
      ∀ a, t.byteAt a = s.byteAt a) ∧
    (¬ held → n ≠ 0 → 4096 < s.effAddr n.toNat → Halts s (exec (.drw x y n) s) .addressOutOfRange)

/-- Rules R173, R174: EX9E and EXA1 test the key of the low nibble of VX in this cycle's sample. -/
def Obligations.KeySkips : Prop :=
  ∀ (s : State) (x : Reg),
    let down := s.ports.keys.getLsbD ((s.getV x).toNat % 16)
    (WordOf (.skp x) (0xE#4 ++ x ++ 0x9E#8) ∧
      GoesTo s (exec (.skp x) s) (if down = true then s.pc + 4 else s.pc + 2)) ∧
    (WordOf (.sknp x) (0xE#4 ++ x ++ 0xA1#8) ∧
      GoesTo s (exec (.sknp x) s) (if down = false then s.pc + 4 else s.pc + 2))

/-- From rule R175: FX0A with an event gives VX the key number and advances; with none it is a wait cycle. From rule R177,
with the device in State (the model's choice, log 10): a reference keypad's waiting event is taken. -/
def Obligations.WaitForKey : Prop :=
  ∀ (s : State) (x : Reg),
    WordOf (.ldVxK x) (0xF#4 ++ x ++ 0x0A#8) ∧
    (s.ports.keyEvent = none → exec (.ldVxK x) s = .next { s with proceed := false }) ∧
    (∀ k, s.ports.keyEvent = some k → ∃ t, exec (.ldVxK x) s = .next t ∧
      (∀ q, (t.getV q).toNat = if q = x then k.toNat else (s.getV q).toNat) ∧ t.pc = s.pc + 2 ∧
      t = { s with v := t.v, pc := t.pc, keypad := s.keypad.consume } ∧ ∀ a, t.byteAt a = s.byteAt a)

/-- Rule R176: CXNN gives VX the random byte of this cycle under the mask NN. -/
def Obligations.RandomByteIsMasked : Prop :=
  ∀ (s : State) (x : Reg) (nn : Byte),
    WordOf (.rnd x nn) (0xC#4 ++ x ++ nn) ∧ WritesReg s (exec (.rnd x nn) s) x (s.ports.rnd &&& nn)

/-- From rule R170: a port that the instruction does not use has no effect whatever on the cycle. -/
def Obligations.UnusedPortsHaveNoEffect : Prop :=
  ∀ (i : Instr) (s : State) (p q : Ports), SameUsedPorts i s.quirks p q →
    exec i { s with ports := p } = mapOutcome (fun t => { t with ports := p }) (exec i { s with ports := q })

/-- From rule R178: the reference display's draw, pixel by pixel: a lit sprite pixel on the screen toggles, the others stay,
and the collision says that some lit sprite pixel met a lit pixel. -/
def Obligations.ReferenceDrawTogglesTheSprite : Prop :=
  ∀ (fb : FrameBuffer) (x y : Byte) (rows : List Byte),
    let lit : Nat → Nat → Bool := fun r c =>
      decide (y.toNat % 32 ≤ r ∧ x.toNat % 64 ≤ c ∧ c < x.toNat % 64 + 8) &&
        (rows.getD (r - y.toNat % 32) 0).getLsbD (7 - (c - x.toNat % 64))
    (∀ r c, r < 32 → c < 64 → (fb.draw x y rows).1.pixel r c = (fb.pixel r c ^^ lit r c)) ∧
    ((fb.draw x y rows).2 = true ↔ ∃ r c, r < 32 ∧ c < 64 ∧ lit r c = true ∧ fb.pixel r c = true)

/-- From rule R178 (program P7): the same draw twice gives the screen back. -/
def Obligations.ReferenceDrawTwiceRestores : Prop :=
  ∀ (fb : FrameBuffer) (x y : Byte) (rows : List Byte), ((fb.draw x y rows).1.draw x y rows).1 = fb

/-- From rule R177: the reference keypad's levels follow the moves, only a release of a held key makes an event, the lowest
number waits, and an FX0A cycle takes it. What a release of a key not held does is the model's choice (log 11) and is not
stated. -/
def Obligations.ReferenceKeypadMoves : Prop :=
  ∀ (held : BitVec 16) (pending : Option Nibble) (k j : Nibble),
    (∃ h, (KeypadDevice.reference held pending).move (.press k) = .reference h pending ∧
      h.getLsbD j.toNat = (decide (j = k) || held.getLsbD j.toNat)) ∧
    (held.getLsbD k.toNat = true → ∃ h e, (KeypadDevice.reference held pending).move (.release k) = .reference h (some e) ∧
      h.getLsbD j.toNat = (!decide (j = k) && held.getLsbD j.toNat) ∧
      (e = k ∨ pending = some e) ∧ e.toNat ≤ k.toNat ∧ ∀ p, pending = some p → e.toNat ≤ p.toNat) ∧
    (KeypadDevice.reference held pending).consume = .reference held none

/-! ### Encoding (spec/30_encoding.md) -/

/-- From rules R60 to R65: decoding an encoded instruction gives it back, every operand at every value. -/
def Obligations.DecodeOfEncode : Prop := ∀ i : Instr, decodeWord (encode i) = some i

/-- From rules R61 to R66 (item I18): a word that decodes is the encoding of what it decodes to, so every bit of a legal
word is an opcode or an operand bit and no two words give one instruction. -/
def Obligations.EncodeOfDecode : Prop := ∀ (w : Word) (i : Instr), decodeWord w = some i → encode i = w

/-- From rule R66: at most one row of the opcode map selects a word. -/
def Obligations.AtMostOneRowSelects : Prop :=
  ∀ w : Word, (opcodeTable.filter fun r => r.selects w).length ≤ 1

/-- From rule R67: the illegal words, by nibbles. -/
def Obligations.IllegalWords : Prop :=
  ∀ (a x y n : Nibble),
    decodeWord (a ++ x ++ y ++ n) = none ↔
      (a = 0x0 ∧ ¬ (x = 0x0 ∧ y = 0xE ∧ (n = 0x0 ∨ n = 0xE))) ∨
      (a = 0x5 ∧ n ≠ 0x0) ∨
      (a = 0x8 ∧ (n = 0x8 ∨ n = 0x9 ∨ n = 0xA ∨ n = 0xB ∨ n = 0xC ∨ n = 0xD ∨ n = 0xF)) ∨
      (a = 0x9 ∧ n ≠ 0x0) ∨
      (a = 0xE ∧ ¬ (y ++ n = 0x9E#8 ∨ y ++ n = 0xA1#8)) ∨
      (a = 0xF ∧ ¬ (y ++ n = 0x07#8 ∨ y ++ n = 0x0A#8 ∨ y ++ n = 0x15#8 ∨ y ++ n = 0x18#8 ∨ y ++ n = 0x1E#8 ∨
        y ++ n = 0x29#8 ∨ y ++ n = 0x33#8 ∨ y ++ n = 0x55#8 ∨ y ++ n = 0x65#8))

/-- From rules R61, R65, R70: six words written out bit by bit decode to the instructions they stand for, and the three
example words of rule R70 decode to instructions whose text is the rule's. -/
def Obligations.SampleWordsDecode : Prop :=
  decodeWord 0b0110101000101111 = some (.ldImm 0xA 0x2F) ∧
  decodeWord 0b0001001000110100 = some (.jp 0x234) ∧
  decodeWord 0b1111001000011110 = some (.addI 0x2) ∧
  decodeWord 0b1111010100010101 = some (.ldDtVx 0x5) ∧
  decodeWord 0b1101011110100101 = some (.drw 0x7 0xA 0x5) ∧
  decodeWord 0b1000101010110100 = some (.addReg 0xA 0xB) ∧
  (decodeWord 0x8AB4).map instrText = some "ADD VA, VB" ∧
  (decodeWord 0xD125).map instrText = some "DRW V1, V2, 0x5" ∧
  (decodeWord 0xF355).map instrText = some "LD [I], V3"

/-! ### The cycle (spec/40_cycle.md) -/

/-- From rules R80, R84: when a running machine's fetch gives a word that decodes, the step is exec of that instruction,
in the state after the outside's part; that part changes only the timers, the ports, the outputs, the devices and the
model's own supply. What that part is, is the model's choice: the sample taken from the supply in State (log 2), the ticks
applied at the start of the cycle (log 3), `proceed` and the command kept in State (log 4); the third clause spells it out
for black-box devices (log 10), `Obligations.ConnectedDevicesAnswerThePorts` for the reference ones. -/
def Obligations.StepRunsTheDecodedInstruction : Prop :=
  (∀ (s : State) (raw : Word) (i : Instr), s.fault = none → fetch s.beginCycle = .ok raw → decodeWord raw = some i →
    step s = exec i s.beginCycle) ∧
  (∀ s : State, ∃ dt st ports display keypad schedule cycle, s.beginCycle =
    { s with dt := dt, st := st, ports := ports, proceed := true, command := none, display := display, keypad := keypad,
             schedule := schedule, cycle := cycle }) ∧
  (∀ (s : State) (h : HostSample) (rest : List HostSample), s.schedule = h :: rest → s.display = .external →
    s.keypad = .external → s.beginCycle =
      { s with dt := tickTimes h.ticks s.dt, st := tickTimes h.ticks s.st, ports := h.ports, proceed := true,
               command := none, schedule := rest, cycle := s.cycle + 1 })

/-- From rules R170, R177 and R178, with the devices in State (the model's choice, log 10) and the supply of log 2 and 3: a
connected reference display's ready level is raised by a refresh and is the cycle's `disp_ready`, a connected reference
keypad's held keys and waiting event, after the supplied moves, are the cycle's `keys` and `key_event`; a black box's ports
are the sampled ones, and so are the random byte and the collision bit. -/
def Obligations.ConnectedDevicesAnswerThePorts : Prop :=
  ∀ (s : State) (h : HostSample) (rest : List HostSample), s.schedule = h :: rest →
    let b := s.beginCycle
    b.ports.rnd = h.ports.rnd ∧ b.ports.collision = h.ports.collision ∧
    (s.display = .external → b.display = .external ∧ b.ports.dispReady = h.ports.dispReady) ∧
    (∀ fb ready, s.display = .reference fb ready →
      b.display = .reference fb (ready || h.refresh) ∧ b.ports.dispReady = (ready || h.refresh)) ∧
    (s.keypad = .external → b.keypad = .external ∧ b.ports.keys = h.ports.keys ∧ b.ports.keyEvent = h.ports.keyEvent) ∧
    (∀ held pending, s.keypad = .reference held pending → ∃ held' pending',
      h.keyMoves.foldl KeypadDevice.move (.reference held pending) = .reference held' pending' ∧
      b.keypad = .reference held' pending' ∧ b.ports.keys = held' ∧ b.ports.keyEvent = pending')

/-- Rule R81 (with R43, R201): below 0xFFF the fetch is the two bytes at `pc`, the lower address high; from 0xFFF on a
running machine's step halts with AddressOutOfRange and nothing else of the cycle's state changed. -/
def Obligations.FetchIsBigEndianAndChecked : Prop :=
  (∀ s : State, s.pc.toNat < 0xFFF → ∃ raw : Word, fetch s = .ok raw ∧
    raw.toNat = (s.byteAt s.pc.toNat).toNat * 256 + (s.byteAt (s.pc.toNat + 1)).toNat) ∧
  (∀ s : State, s.fault = none → 0xFFF ≤ s.pc.toNat → Halts s.beginCycle (step s) .addressOutOfRange)

/-- Rule R204: an illegal word halts a running machine with UnknownOpcode, nothing else of the cycle's state changed. -/
def Obligations.UnknownOpcodeHalts : Prop :=
  ∀ (s : State) (raw : Word), s.fault = none → fetch s.beginCycle = .ok raw → decodeWord raw = none →
    Halts s.beginCycle (step s) .unknownOpcode

/-- Rule R86: a halted machine's step does nothing: no state change but the outputs of the call, whatever the sample; no
host operation but Reset clears the latch, and Reset does. -/
def Obligations.HaltedMachineDoesNothing : Prop :=
  ∀ (s : State) (c : Condition) (h : HostSample), s.fault = some c →
    step s = .fault (c.toFault { s with proceed := false, command := none }) ∧
    stepWith h s = .fault (c.toFault { s with proceed := false, command := none }) ∧
    (∀ o, (∀ q m, o ≠ .reset q m) → (s.hostApply o).1.fault = some c) ∧
    ∀ q m, (s.hostReset q m).fault = none

/-- From rule R80: the step is total, and there is no refusal. -/
def Obligations.StepNeverRefuses : Prop := ∀ (s : State) (r : Refusal), step s ≠ .refused r

/-- From rules R205 and R208: a cycle that fails in Execute latches its condition, reports `proceed` false, and leaves
`pc`, I, the stack, the timers, the quirks, the devices and the command as they were; only FX33 and FX55 may have written
memory, and only bytes of their block below 4096; only FX65 registers, and only those of addresses below 4096 (rule R46). -/
def Obligations.FailedExecuteLeavesTheRest : Prop :=
  ∀ (i : Instr) (s : State) (f : Fault), exec i s = .fault f →
    ∃ c : Condition, f = c.toFault f.halted ∧
      f.halted = { s with v := f.halted.v, mem := f.halted.mem, fault := some c, proceed := false } ∧
      ((∀ x, i ≠ .ldRegs x) → f.halted.v = s.v) ∧
      ((∀ x, i ≠ .ldB x ∧ i ≠ .stRegs x) → f.halted.mem = s.mem) ∧
      (∀ x, i = .ldB x → ∀ a, ¬ (inBlock (s.effAddr 0) 3 a ∧ a < 4096) → f.halted.byteAt a = s.byteAt a) ∧
      (∀ x, i = .stRegs x → ∀ a, ¬ (inBlock (s.effAddr 0) (x.toNat + 1) a ∧ a < 4096) →
        f.halted.byteAt a = s.byteAt a) ∧
      (∀ x, i = .ldRegs x → ∀ q : Reg, ¬ (q.toNat ≤ x.toNat ∧ s.effAddr q.toNat < 4096) →
        f.halted.getV q = s.getV q)

/-- From rule R88: the condition an instruction can raise in Execute, at most one kind. -/
def Obligations.FaultKindOfInstruction : Prop :=
  ∀ (i : Instr) (s : State) (f : Fault), exec i s = .fault f →
    ((∃ nnn, i = .call nnn) ∧ f = .stackOverflow f.halted) ∨
    (i = .ret ∧ f = .stackUnderflow f.halted) ∨
    (((∃ x, i = .ldB x ∨ i = .stRegs x ∨ i = .ldRegs x) ∨ ∃ x y n, i = .drw x y n) ∧
      f = .addressOutOfRange f.halted)

/-- From rule R84: what `pc` can be after a cycle that did not fail, by kind of instruction. -/
def Obligations.NextPcIsOneOfTheListed : Prop :=
  ∀ (i : Instr) (s t : State), exec i s = .next t →
    match i with
    | .jp nnn | .call nnn => t.pc.toNat = nnn.toNat
    | .jpV0 nnn => t.pc.toNat = (nnn.toNat + (s.jumpOffset nnn).toNat) % 65536
    | .ret => s.stackEntry (s.sp - 1) = some t.pc
    | .seImm x nn => t.pc = if s.getV x = nn then s.pc + 4 else s.pc + 2
    | .sneImm x nn => t.pc = if s.getV x ≠ nn then s.pc + 4 else s.pc + 2
    | .seReg x y => t.pc = if s.getV x = s.getV y then s.pc + 4 else s.pc + 2
    | .sneReg x y => t.pc = if s.getV x ≠ s.getV y then s.pc + 4 else s.pc + 2
    | .skp x => t.pc = if s.keyDown x = true then s.pc + 4 else s.pc + 2
    | .sknp x => t.pc = if s.keyDown x = false then s.pc + 4 else s.pc + 2
    | .ldVxK _ => t.pc = if s.ports.keyEvent = none then s.pc else s.pc + 2
    | .drw _ _ _ => t.pc = if s.quirks.displayWait = true ∧ s.ports.dispReady = false then s.pc else s.pc + 2
    | _ => t.pc = s.pc + 2

/-- From rule R85: `proceed` stays as the step set it for every instruction that does not fail but the two wait cycles. -/
def Obligations.ProceedIsFalseOnlyInWaitCycles : Prop :=
  ∀ (i : Instr) (s t : State), s.proceed = true → exec i s = .next t →
    (t.proceed = false ↔
      ((∃ x, i = .ldVxK x) ∧ s.ports.keyEvent = none) ∨
      ((∃ x y n, i = .drw x y n) ∧ s.quirks.displayWait = true ∧ s.ports.dispReady = false))

/-! ### Who writes what -/

/-- From rule R40: no instruction but FX33 and FX55 changes a byte of memory. -/
def Obligations.OnlyStoresWriteMemory : Prop :=
  ∀ (i : Instr) (s t : State), exec i s = .next t → (∀ x, i ≠ .ldB x ∧ i ≠ .stRegs x) →
    t.mem = s.mem ∧ ∀ a, t.byteAt a = s.byteAt a

/-- From rules R13, R15 and R16: the stack is touched only by 2NNN and 00EE, I only by ANNN, FX1E, FX29, FX55 and FX65, DT
only by FX15, ST only by FX18. -/
def Obligations.WhoWritesStackIndexAndTimers : Prop :=
  ∀ (i : Instr) (s t : State), exec i s = .next t →
    ((∀ nnn, i ≠ .call nnn) → i ≠ .ret → t.stack = s.stack) ∧
    ((∀ nnn, i ≠ .ldI nnn) → (∀ x, i ≠ .addI x ∧ i ≠ .ldF x ∧ i ≠ .stRegs x ∧ i ≠ .ldRegs x) → t.i = s.i) ∧
    ((∀ x, i ≠ .ldDtVx x) → t.dt = s.dt) ∧ ((∀ x, i ≠ .ldStVx x) → t.st = s.st)

/-- From rule R12: VF changes only by the six flag instructions, or where the instruction names it as its destination. -/
def Obligations.WhoWritesTheFlagRegister : Prop :=
  ∀ (i : Instr) (s t : State), exec i s = .next t → t.getV 0xF ≠ s.getV 0xF →
    (∃ x y, i = .addReg x y ∨ i = .subReg x y ∨ i = .subnReg x y ∨ i = .shr x y ∨ i = .shl x y ∨ ∃ n, i = .drw x y n) ∨
    (∃ nn, i = .ldImm 0xF nn ∨ i = .addImm 0xF nn ∨ i = .rnd 0xF nn) ∨
    (∃ y, i = .ldReg 0xF y ∨ i = .orReg 0xF y ∨ i = .andReg 0xF y ∨ i = .xorReg 0xF y) ∨
    i = .ldVxDt 0xF ∨ i = .ldVxK 0xF ∨ i = .ldRegs 0xF

/-- From rule R18: no cycle, completed or failed, and no host operation but Reset changes the Quirks record or the
parameter FONT_BASE. -/
def Obligations.QuirksAreConstant : Prop :=
  (∀ s : State, (leaves s (step s)).quirks = s.quirks ∧ (leaves s (step s)).fontBase = s.fontBase) ∧
  (∀ (s : State) (o : HostOp), (∀ q m, o ≠ .reset q m) →
    (s.hostApply o).1.quirks = s.quirks ∧ (s.hostApply o).1.fontBase = s.fontBase)

/-! ### Invariants -/

/-- From rules R15 and R40 (the canonical form is the model's own): every step keeps the invariant, in the state it goes
on with and in the halted state it leaves. -/
def Obligations.StepKeepsTheInvariant : Prop :=
  ∀ s : State, s.Inv → (∀ t, step s = .next t → t.Inv) ∧ ∀ f, step s = .fault f → f.halted.Inv

/-- The invariants hold at State.reset. -/
def Obligations.ResetHasTheInvariants : Prop := State.reset.Inv ∧ State.reset.PcBound

/-- From rules R24 and R15: every history of cycles and host operations keeps the invariant. -/
def Obligations.HistoriesKeepTheInvariant : Prop :=
  ∀ (s : State) (es : List HostEvent), s.Inv → (s.afterAll es).Inv

/-- From rule R14: `pc` never exceeds 0x10FE, and no return address 0x1000, in a machine whose host does not write them:
every step keeps it, in the state it goes on with and in the halted state it leaves. -/
def Obligations.StepKeepsThePcBound : Prop :=
  ∀ s : State, s.PcBound → (∀ t, step s = .next t → t.PcBound) ∧ ∀ f, step s = .fault f → f.halted.PcBound

/-! ### Host operations, reset and the end of a run -/

/-- Rule R25: the state after Reset, from any state: the registers, I and timers zero, `pc` at 0x200, the stack empty, the
memory the image, the quirks the argument, no fault. -/
def Obligations.ResetLeavesTheStatedValues : Prop :=
  ∀ (s : State) (q : Quirks) (img : Vector Byte 4096),
    let t := s.hostReset q img
    (∀ r, t.getV r = 0) ∧ t.i = 0 ∧ t.pc = 0x0200 ∧ t.sp = 0 ∧ t.dt = 0 ∧ t.st = 0 ∧ t.soundActive = false ∧
    (∀ (k : Nat) (hk : k < 4096), t.byteAt k = img[k]) ∧ t.quirks = q ∧ t.faultCode = 0

/-- The state the host's interface calls reset is Reset on the suggested image with the model's quirks; the image, the
quirks and FONT_BASE are the model's choice (log 5, 6, 7). -/
def Obligations.ResetStateIsAHostReset : Prop :=
  State.reset.hostReset Config.resetQuirks suggestedImage = State.reset

/-- From rule R231: after Reset the first cycle fetches the word at 0x200 of the image; with no program there it halts with
UnknownOpcode. -/
def Obligations.FirstFetchIsAtTheOrigin : Prop :=
  ∀ (s : State) (q : Quirks) (img : Vector Byte 4096),
    fetch (s.hostReset q img).beginCycle = .ok (img[0x200] ++ img[0x201]) ∧
    (img[0x200] = 0 → img[0x201] = 0 →
      Halts (s.hostReset q img).beginCycle (step (s.hostReset q img)) .unknownOpcode)

/-- From rules R24, R42 and R209: a host access that fails is reported and changes nothing, FAULT.code included; a host
write of memory at an address that exists changes that byte; only Reset clears the latch. -/
def Obligations.HostAccessesDoNotLatch : Prop :=
  (∀ (s : State) (o : HostOp) (c : Condition), (s.hostApply o).2 = some c → (s.hostApply o).1 = s) ∧
  (∀ (s : State) (o : HostOp), (∀ q m, o ≠ .reset q m) → (s.hostApply o).1.fault = s.fault) ∧
  (∀ (s : State) (a k : Nat) (b : Byte),
    (s.hostApply (.memoryWrite a b)).1.byteAt k = if k = a ∧ a < 4096 then b else s.byteAt k) ∧
  (∀ (s : State) (a : Nat) (b : Byte),
    (s.hostApply (.memoryWrite a b)).2 = if a < 4096 then none else some .addressOutOfRange)

/-- From rule R24: each writing accessor that succeeds writes its own component with the value given and leaves every other
one; a push beyond 16 entries and a pop from none are reported, and change nothing. -/
def Obligations.HostAccessorsWriteTheirComponent : Prop :=
  ∀ s : State,
    (∀ r b, ∃ t, s.hostApply (.setRegister r b) = (t, none) ∧ (∀ q, t.getV q = if q = r then b else s.getV q) ∧
      t = { s with v := t.v }) ∧
    (∀ a, s.hostApply (.setIndex a) = ({ s with i := a }, none)) ∧
    (∀ a, s.hostApply (.setPC a) = ({ s with pc := a }, none)) ∧
    (∀ b, s.hostApply (.setDelayTimer b) = ({ s with dt := b }, none)) ∧
    (∀ b, s.hostApply (.setSoundTimer b) = ({ s with st := b }, none)) ∧
    (∀ a b, a < 4096 → ∃ t, s.hostApply (.memoryWrite a b) = (t, none) ∧ t.byteAt a = b ∧
      (∀ k, k ≠ a → t.byteAt k = s.byteAt k) ∧ t = { s with mem := t.mem }) ∧
    (∀ a, s.sp < 16 → ∃ t, s.hostApply (.stackPush a) = (t, none) ∧ t.sp = s.sp + 1 ∧ t.stackEntry s.sp = some a ∧
      (∀ k, k < s.sp → t.stackEntry k = s.stackEntry k) ∧ t = { s with stack := t.stack }) ∧
    (∀ a, s.sp = 16 → s.hostApply (.stackPush a) = (s, some .stackOverflow)) ∧
    (∀ a, s.sp ≠ 0 → s.stackEntry (s.sp - 1) = some a → ∃ t, s.stackPop = .ok (a, t) ∧
      s.hostApply .stackPop = (t, none) ∧ t.sp = s.sp - 1 ∧
      (∀ k, k < s.sp - 1 → t.stackEntry k = s.stackEntry k) ∧ t = { s with stack := t.stack }) ∧
    (s.sp = 0 → s.hostApply .stackPop = (s, some .stackUnderflow))

/-- From rules R47 and R232: a program of at most 3584 bytes is loaded at 0x200 with no report and every other byte kept;
a longer one is reported as AddressOutOfRange; neither latches a fault. -/
def Obligations.ProgramIsLoadedAtTheOrigin : Prop :=
  ∀ (s : State) (rom : List Byte),
    (rom.length ≤ 3584 → (s.loadRom rom).2 = none ∧
      ∀ k, (s.loadRom rom).1.byteAt k
        = if 0x200 ≤ k ∧ k < 0x200 + rom.length then rom.getD (k - 0x200) 0 else s.byteAt k) ∧
    (3584 < rom.length → (s.loadRom rom).2 = some .addressOutOfRange) ∧
    (s.loadRom rom).1 = { s with mem := (s.loadRom rom).1.mem }

/-- From rule R233: from a terminal state the cycle changes nothing beyond the outside's part, and the state it leaves is
terminal again. -/
def Obligations.TerminalStatesStay : Prop :=
  ∀ s : State, s.terminal → step s = .next s.beginCycle ∧ s.beginCycle.terminal
end

