-- ==== Sys2Proof/Laws/Config.lean ====
section
/-! SUPPORT. The parameters of spec/00_scope.md rule R5 that stand in the model's types: each type has the width or the
length its named constant says. -/

namespace Sys2Proof.Machine

theorem Laws.config_regWidth : Byte = BitVec Config.regWidth := rfl

theorem Laws.config_iWidth : Word = BitVec Config.iWidth := rfl

theorem Laws.config_pcWidth : Word = BitVec Config.pcWidth := rfl

theorem Laws.config_numRegs (s : State) : s.v.size = Config.numRegs := rfl

/-- The 4-bit register fields name every register and no other (rule R11). -/
theorem Laws.config_regField : 2 ^ FieldName.x.width = Config.numRegs := rfl

/-- An instruction's bytes in Memory (rule R60). -/
theorem Laws.config_instrBytes (i : Instr) : (encodeBytes i).length = Config.instrBytes.toNat := rfl

/-- The image that Reset takes covers Memory (rule R25). -/
theorem Laws.config_memImage (img : Vector Byte 4096) : img.size = Config.memCapacity := rfl

end Sys2Proof.Machine
end

