-- ==== Sys2Proof/Tests/Slice0.lean ====
section
/-! SUPPORT. The model's own tests: well-formedness, decoding of words written out from the spec's encodings, one step per
instruction with the results of spec/95_test_vectors.md, and for every statement with hypotheses a state that meets them.
Expected results are the spec's vectors; the id of the vector stands in each comment. -/

namespace Sys2Proof.Tests

open Sys2Proof Sys2Proof.Machine

/-! ### Well-formedness: each check refuses an ill-formed term -/

/-- A register number of 16 does not fit field X. -/
theorem test_operand_refused : Operand.wellFormed ⟨.x, 16⟩ = false := by decide

/-- An immediate of 256 does not fit field NN, an address of 4096 does not fit NNN, a height of 16 does not fit N. -/
theorem test_operand_refused_wide :
    (Operand.wellFormed ⟨.nn, 256⟩, Operand.wellFormed ⟨.nnn, 4096⟩, Operand.wellFormed ⟨.n, 16⟩,
      Operand.wellFormed ⟨.y, 16⟩) = (false, false, false, false) := by decide

theorem test_operand_accepted : Operand.wellFormed ⟨.nnn, 4095⟩ = true := by decide

theorem test_instr_wellFormed : Instr.wellFormed (.drw 0xF 0xF 0xF) = true := by decide

/-- A pattern with a bit outside its mask. -/
theorem test_row_refused : rowWellFormed 0x8001 0xF000 = false := by decide

/-- The machine-code call 0NNN as a row would overlap rows 1 and 2 (rule R66). -/
theorem test_table_refused : tableWellFormed ((0x0000, 0xF000) :: opcodePairs) = false := by decide

theorem test_rows_overlap : rowsDisjoint (0x0000, 0xF000) (0x00E0, 0xFFFF) = false := by decide

theorem romWellFormed_replicate (n : Nat) : romWellFormed (List.replicate n 0) = decide (512 + n ≤ 4096) := by
  rw [romWellFormed, List.length_replicate]; rfl

/-- One byte more than fits (rule R232). -/
theorem test_rom_refused : romWellFormed (List.replicate 3585 0) = false := (romWellFormed_replicate 3585).trans (by decide)

theorem test_rom_accepted : romWellFormed (List.replicate 3584 0) = true := (romWellFormed_replicate 3584).trans (by decide)

/-- A font of 80 bytes at 0xFB1 would end at 0x1000. -/
theorem test_font_refused : fontBaseWellFormed 0xFB1 = false ∧ fontBaseWellFormed 0xFB0 = true := by decide

/-! ### Decoding: words written out bit by bit (rules R61, R62, R65) -/

theorem test_decode_cls : decodeWord 0b0000000011100000 = some (.cls) ∧ encode (.cls) = 0b0000000011100000 := by decide

theorem test_decode_ret : decodeWord 0b0000000011101110 = some (.ret) ∧ encode (.ret) = 0b0000000011101110 := by decide

theorem test_decode_jp : decodeWord 0b0001001000110100 = some (.jp 0x234) ∧ encode (.jp 0x234) = 0b0001001000110100 := by decide

theorem test_decode_call : decodeWord 0b0010101010111100 = some (.call 0xABC) ∧ encode (.call 0xABC) = 0b0010101010111100 := by decide

theorem test_decode_seImm : decodeWord 0b0011111100000001 = some (.seImm 0xF 0x01) ∧ encode (.seImm 0xF 0x01) = 0b0011111100000001 := by decide

theorem test_decode_sneImm : decodeWord 0b0100000110000000 = some (.sneImm 0x1 0x80) ∧ encode (.sneImm 0x1 0x80) = 0b0100000110000000 := by decide

theorem test_decode_seReg : decodeWord 0b0101000100100000 = some (.seReg 0x1 0x2) ∧ encode (.seReg 0x1 0x2) = 0b0101000100100000 := by decide

theorem test_decode_ldImm : decodeWord 0b0110101000101111 = some (.ldImm 0xA 0x2F) ∧ encode (.ldImm 0xA 0x2F) = 0b0110101000101111 := by decide

theorem test_decode_addImm : decodeWord 0b0111111100000010 = some (.addImm 0xF 0x02) ∧ encode (.addImm 0xF 0x02) = 0b0111111100000010 := by decide

theorem test_decode_ldReg : decodeWord 0b1000101010110000 = some (.ldReg 0xA 0xB) ∧ encode (.ldReg 0xA 0xB) = 0b1000101010110000 := by decide

theorem test_decode_orReg : decodeWord 0b1000101111110001 = some (.orReg 0xB 0xF) ∧ encode (.orReg 0xB 0xF) = 0b1000101111110001 := by decide

theorem test_decode_andReg : decodeWord 0b1000000000010010 = some (.andReg 0x0 0x1) ∧ encode (.andReg 0x0 0x1) = 0b1000000000010010 := by decide

theorem test_decode_xorReg : decodeWord 0b1000000100100011 = some (.xorReg 0x1 0x2) ∧ encode (.xorReg 0x1 0x2) = 0b1000000100100011 := by decide

theorem test_decode_addReg : decodeWord 0b1000101010110100 = some (.addReg 0xA 0xB) ∧ encode (.addReg 0xA 0xB) = 0b1000101010110100 := by decide

theorem test_decode_subReg : decodeWord 0b1000111100010101 = some (.subReg 0xF 0x1) ∧ encode (.subReg 0xF 0x1) = 0b1000111100010101 := by decide

theorem test_decode_shr : decodeWord 0b1000000100100110 = some (.shr 0x1 0x2) ∧ encode (.shr 0x1 0x2) = 0b1000000100100110 := by decide

theorem test_decode_subnReg : decodeWord 0b1000000000010111 = some (.subnReg 0x0 0x1) ∧ encode (.subnReg 0x0 0x1) = 0b1000000000010111 := by decide

theorem test_decode_shl : decodeWord 0b1000000100101110 = some (.shl 0x1 0x2) ∧ encode (.shl 0x1 0x2) = 0b1000000100101110 := by decide

theorem test_decode_sneReg : decodeWord 0b1001000100100000 = some (.sneReg 0x1 0x2) ∧ encode (.sneReg 0x1 0x2) = 0b1001000100100000 := by decide

theorem test_decode_ldI : decodeWord 0b1010001100000000 = some (.ldI 0x300) ∧ encode (.ldI 0x300) = 0b1010001100000000 := by decide

theorem test_decode_jpV0 : decodeWord 0b1011001011111111 = some (.jpV0 0x2FF) ∧ encode (.jpV0 0x2FF) = 0b1011001011111111 := by decide

theorem test_decode_rnd : decodeWord 0b1100111100001111 = some (.rnd 0xF 0x0F) ∧ encode (.rnd 0xF 0x0F) = 0b1100111100001111 := by decide

theorem test_decode_drw : decodeWord 0b1101011110100101 = some (.drw 0x7 0xA 0x5) ∧ encode (.drw 0x7 0xA 0x5) = 0b1101011110100101 := by decide

theorem test_decode_skp : decodeWord 0b1110001110011110 = some (.skp 0x3) ∧ encode (.skp 0x3) = 0b1110001110011110 := by decide

theorem test_decode_sknp : decodeWord 0b1110110010100001 = some (.sknp 0xC) ∧ encode (.sknp 0xC) = 0b1110110010100001 := by decide

theorem test_decode_ldVxDt : decodeWord 0b1111010100000111 = some (.ldVxDt 0x5) ∧ encode (.ldVxDt 0x5) = 0b1111010100000111 := by decide

theorem test_decode_ldVxK : decodeWord 0b1111000000001010 = some (.ldVxK 0x0) ∧ encode (.ldVxK 0x0) = 0b1111000000001010 := by decide

theorem test_decode_ldDtVx : decodeWord 0b1111010100010101 = some (.ldDtVx 0x5) ∧ encode (.ldDtVx 0x5) = 0b1111010100010101 := by decide

theorem test_decode_ldStVx : decodeWord 0b1111010100011000 = some (.ldStVx 0x5) ∧ encode (.ldStVx 0x5) = 0b1111010100011000 := by decide

theorem test_decode_addI : decodeWord 0b1111001100011110 = some (.addI 0x3) ∧ encode (.addI 0x3) = 0b1111001100011110 := by decide

theorem test_decode_ldF : decodeWord 0b1111100000101001 = some (.ldF 0x8) ∧ encode (.ldF 0x8) = 0b1111100000101001 := by decide

theorem test_decode_ldB : decodeWord 0b1111000100110011 = some (.ldB 0x1) ∧ encode (.ldB 0x1) = 0b1111000100110011 := by decide

theorem test_decode_stRegs : decodeWord 0b1111001101010101 = some (.stRegs 0x3) ∧ encode (.stRegs 0x3) = 0b1111001101010101 := by decide

theorem test_decode_ldRegs : decodeWord 0b1111001001100101 = some (.ldRegs 0x2) ∧ encode (.ldRegs 0x2) = 0b1111001001100101 := by decide


/-- The words of table X of the vectors, and the boundary words around the legal ones, are illegal (rule R67). -/
theorem test_decode_illegal :
    [0x0000, 0x00E1, 0x00EF, 0x00FE, 0x00FF, 0x0123, 0x5001, 0x8008, 0x800F, 0x9001, 0xE000, 0xE09F, 0xF000, 0xF030,
      0xF066, 0xF075, 0xF085, 0xFFFF].all (fun w => decodeWord w == none) = true := by decide

/-- Bytes in Memory order, the rest handed back; too few bytes, and a word that is none, are refused by name. -/
theorem test_decodeBytes : decodeBytes [0x12, 0x34, 0x56] = .ok (.jp 0x234, [0x56]) := by decide

theorem test_decodeBytes_refused : decodeBytes [0x12] = .error .truncated ∧
    decodeBytes [0x00, 0x00] = .error (.unknownOpcode 0) := by decide

/-- The host's numbering of the table's bits: the word's own. -/
theorem test_decodeTableWord : decodeTableWord 16 0x1234 = some (.jp 0x234) ∧ decodeTableWord 16 0x00E1 = none := by
  decide

/-- The encoder's bytes, high byte first. -/
theorem test_encodeBytes : encodeBytes (.addReg 0xA 0xB) = [0x8A, 0xB4] := by decide

/-! ### Small states -/

/-- The ports of the vectors: no key, no event, random byte 0, display ready; the display answers 0. -/
def quiet : Ports := ⟨0, none, 0, true, false⟩

/-- The start state of the vectors, with the ports of a cycle sampled. -/
def start : State := { State.reset with ports := quiet }

/-- Registers, given as pairs. -/
def withV (l : List (Reg × Byte)) (s : State) : State := l.foldl (fun t p => t.setV p.1 p.2) s

/-- Bytes of memory from an address on. -/
def withMem (a : Nat) (bs : List Byte) (s : State) : State := (storeBytes s a bs).1

/-- A stack that holds `n` entries, all `a`. -/
def withStack (n : Nat) (a : Word) (s : State) : State := { s with stack := List.replicate n a }

/-- One quirk on. -/
def inPlace : Quirks := ⟨false, false, true, false, false⟩
def usesVX : Quirks := ⟨false, false, false, true, false⟩
def waits : Quirks := ⟨false, false, false, false, true⟩
def leavesI : Quirks := ⟨true, false, false, false, false⟩
def byX : Quirks := ⟨false, true, false, false, false⟩

/-- A state whose next cycle samples `p` with nothing else from the outside, and fetches `word` at `pc`. -/
def ready (word : Nat) (p : Ports) (s : State) : State :=
  { s with schedule := [⟨0, false, [], p⟩] }.withFetchWord 16 word

/-- The outcome is a next state that passes the check. -/
def ok (o : Outcome) (p : State → Bool) : Bool :=
  match o with
  | .next t => p t
  | _ => false

/-- The condition that a fault's constructor names. -/
def kind : Fault → Condition
  | .addressOutOfRange _ => .addressOutOfRange
  | .stackOverflow _ => .stackOverflow
  | .stackUnderflow _ => .stackUnderflow
  | .unknownOpcode _ => .unknownOpcode

/-- The outcome is this fault, latched with `proceed` false, and the halted state passes the check. -/
def halts (o : Outcome) (c : Condition) (p : State → Bool) : Bool :=
  match o with
  | .fault f => kind f == c && f.halted.fault == some c && !f.halted.proceed && p f.halted
  | _ => false

/-- The value of register `r`, and of VF. -/
def v (r : Reg) (b : Byte) (t : State) : Bool := t.getV r == b

/-! ### One step per instruction (spec/95_test_vectors.md, Part 2) -/

/-- Vector a1. -/
theorem test_ldImm : 
    ok (exec (.ldImm 0xF 0x55) (start)) (fun t => v 0xF 0x55 t && t.pc == 0x202) = true := by decide

/-- Vectors a2 and a3: wraps, no flag. -/
theorem test_addImm_wraps : 
    ok (exec (.addImm 0 0x01) (withV [(0, 0xFF), (0xF, 0x55)] start)) (fun t => v 0 0 t && v 0xF 0x55 t && t.pc == 0x202) = true := by decide

/-- Vector a2. -/
theorem test_addImm_VF : 
    ok (exec (.addImm 0xF 0x02) (withV [(0xF, 0xFF)] start)) (fun t => v 0xF 0x01 t) = true := by decide

/-- Vector a4. -/
theorem test_ldReg : 
    ok (exec (.ldReg 0xA 0xB) (withV [(0xB, 0x9C)] start)) (fun t => v 0xA 0x9C t && v 0xB 0x9C t) = true := by decide

/-- Vector a5: VF is not cleared. -/
theorem test_orReg : 
    ok (exec (.orReg 0xF 0xF) (withV [(0xF, 0x5A)] start)) (fun t => v 0xF 0x5A t && t.pc == 0x202) = true := by decide

/-- Vector a6b. -/
theorem test_andReg : 
    ok (exec (.andReg 0 1) (withV [(0, 0x3C), (1, 0x0F), (0xF, 1)] start)) (fun t => v 0 0x0C t && v 0xF 1 t) = true := by decide

/-- Vector a6. -/
theorem test_xorReg : 
    ok (exec (.xorReg 1 2) (withV [(1, 0xAA), (2, 0xAA)] start)) (fun t => v 1 0 t && v 2 0xAA t) = true := by decide

/-- Vector a9: the sum 255 is no carry. -/
theorem test_addReg_edge : 
    ok (exec (.addReg 0 1) (withV [(0, 0x7F), (1, 0x80), (0xF, 1)] start)) (fun t => v 0 0xFF t && v 0xF 0 t) = true := by decide

/-- Vector a10: with X = F the flag remains. -/
theorem test_addReg_flag_last : 
    ok (exec (.addReg 0xF 1) (withV [(0xF, 0xF0), (1, 0x20)] start)) (fun t => v 0xF 1 t) = true := by decide

/-- Vector a15. -/
theorem test_subReg_equal : 
    ok (exec (.subReg 0 1) (withV [(0, 0x33), (1, 0x33)] start)) (fun t => v 0 0 t && v 0xF 1 t) = true := by decide

/-- Vector a14. -/
theorem test_subReg_borrow : 
    ok (exec (.subReg 0 1) (withV [(1, 1), (0xF, 1)] start)) (fun t => v 0 0xFF t && v 0xF 0 t) = true := by decide

/-- Vector a20. -/
theorem test_shr_inPlace : 
    ok (exec (.shr 1 2) (withV [(1, 0x01), (2, 0x80)] { start with quirks := inPlace })) (fun t => v 1 0 t && v 0xF 1 t) = true := by decide

/-- Vector a24: the old VF is the operand. -/
theorem test_shr : 
    ok (exec (.shr 1 0xF) (withV [(0xF, 3), (1, 8)] start)) (fun t => v 1 1 t && v 0xF 1 t) = true := by decide

/-- Vector a18. -/
theorem test_subnReg_borrow : 
    ok (exec (.subnReg 0 1) (withV [(0, 7), (1, 5), (0xF, 1)] start)) (fun t => v 0 0xFE t && v 0xF 0 t) = true := by decide

/-- Vector a19. -/
theorem test_subnReg_equal : 
    ok (exec (.subnReg 0 1) (withV [(0, 5), (1, 5)] start)) (fun t => v 0 0 t && v 0xF 1 t) = true := by decide

/-- Vector a26. -/
theorem test_shl : 
    ok (exec (.shl 1 2) (withV [(1, 0xFF), (2, 0x7F)] start)) (fun t => v 1 0xFE t && v 0xF 0 t && v 2 0x7F t) = true := by decide

/-- Vector a27. -/
theorem test_shl_flag_last : 
    ok (exec (.shl 0xF 0xF) (withV [(0xF, 0x80)] { start with quirks := inPlace })) (fun t => v 0xF 1 t) = true := by decide

/-- Vector c1: no change at all. -/
theorem test_jp_self : 
    ok (exec (.jp 0x200) (start)) (fun t => decide (t = start)) = true := by decide

/-- Vector c2. -/
theorem test_jp_top : 
    ok (exec (.jp 0xFFF) (start)) (fun t => t.pc == 0xFFF) = true := by decide

/-- Vector c5. -/
theorem test_call_sixteenth : 
    ok (exec (.call 0xABC) (withStack 15 0x206 { start with pc := 0x4FE })) (fun t => t.sp == 16 && t.stackEntry 15 == some 0x500 && t.pc == 0xABC) = true := by decide

/-- Vector c6. -/
theorem test_call_overflow : 
    halts (exec (.call 0xABC) (withStack 16 0x206 { start with pc := 0x4FE })) .stackOverflow (fun t => t.sp == 16 && t.pc == 0x4FE) = true := by decide

/-- Vector c9. -/
theorem test_ret : 
    ok (exec (.ret) ({ start with stack := [0x1000, 0x206] })) (fun t => t.sp == 1 && t.pc == 0x1000 && t.stackEntry 0 == some 0x206) = true := by decide

/-- Vector c8. -/
theorem test_ret_underflow : 
    halts (exec (.ret) (start)) .stackUnderflow (fun t => t.pc == 0x200 && t.sp == 0) = true := by decide

/-- Vector c10. -/
theorem test_jpV0 : 
    ok (exec (.jpV0 0x2FF) (withV [(0, 1), (2, 0xFF)] start)) (fun t => t.pc == 0x300) = true := by decide

/-- Vector c11; c12 has the exact sum. -/
theorem test_jpV0_usesVX : 
    ok (exec (.jpV0 0x2FF) (withV [(0, 1), (2, 0xFF)] { start with quirks := usesVX })) (fun t => t.pc == 0x3FE) = true := by decide

/-- Vector c14. -/
theorem test_seImm : 
    ok (exec (.seImm 0xF 1) (withV [(0xF, 1)] start)) (fun t => t.pc == 0x204) = true := by decide

/-- Vector c16. -/
theorem test_sneImm : 
    ok (exec (.sneImm 0 0) (start)) (fun t => t.pc == 0x202) = true := by decide

/-- Vector c18. -/
theorem test_seReg : 
    ok (exec (.seReg 1 2) (withV [(1, 1), (2, 2)] start)) (fun t => t.pc == 0x202) = true := by decide

/-- Vector c20. -/
theorem test_sneReg : 
    ok (exec (.sneReg 1 2) (withV [(1, 1), (2, 2)] start)) (fun t => t.pc == 0x204) = true := by decide

/-- Vector i1. -/
theorem test_ldI : 
    ok (exec (.ldI 0xFFF) (start)) (fun t => t.i == 0xFFF) = true := by decide

/-- Vector i2. -/
theorem test_addI_past_capacity : 
    ok (exec (.addI 0) (withV [(0, 1)] { start with i := 0xFFF })) (fun t => t.i == 0x1000 && v 0xF 0 t) = true := by decide

/-- Vector i3. -/
theorem test_addI_wraps : 
    ok (exec (.addI 0) (withV [(0, 2)] { start with i := 0xFFFF })) (fun t => t.i == 1) = true := by decide

/-- Vector i7: the low nibble only. -/
theorem test_ldF : 
    ok (exec (.ldF 0) (withV [(0, 0x1A)] start)) (fun t => t.i == 0x82) = true := by decide

/-- Vector i6. -/
theorem test_ldF_last : 
    ok (exec (.ldF 0) (withV [(0, 0x0F)] start)) (fun t => t.i == 0x9B) = true := by decide

/-- Vector i10: the last legal position. -/
theorem test_ldB : 
    ok (exec (.ldB 0) (withV [(0, 0x64)] { start with i := 0xFFD })) (fun t => t.byteAt 0xFFD == 1 && t.byteAt 0xFFE == 0 && t.byteAt 0xFFF == 0 && t.i == 0xFFD) = true := by decide

/-- Vector i11: the partial effect is kept. -/
theorem test_ldB_partial : 
    halts (exec (.ldB 0) (withV [(0, 0xFF)] { start with i := 0xFFE })) .addressOutOfRange (fun t => t.byteAt 0xFFE == 2 && t.byteAt 0xFFF == 5 && t.pc == 0x200) = true := by decide

/-- Example E1, both quirks false. -/
theorem test_stRegs_both_false : 
    ok (exec (.stRegs 3) (withV [(0, 0x11), (1, 0x22), (2, 0x33), (3, 0x44)] { start with i := 0x300 })) (fun t => [0x300, 0x301, 0x302, 0x303, 0x304].map t.byteAt == [0x11, 0x22, 0x33, 0x44, 0] && t.i == 0x304) = true := by decide

/-- Vector i15. -/
theorem test_stRegs_partial : 
    halts (exec (.stRegs 1) (withV [(0, 0xAB), (1, 0xCD)] { start with i := 0xFFF })) .addressOutOfRange (fun t => t.byteAt 0xFFF == 0xAB && t.i == 0xFFF && t.pc == 0x200) = true := by decide

/-- Vector i16, Xq = true. -/
theorem test_ldRegs_byX : 
    ok (exec (.ldRegs 2) (withMem 0x300 [2, 3, 4] { start with i := 0x300, quirks := byX })) (fun t => v 0 2 t && v 1 3 t && v 2 4 t && t.i == 0x302) = true := by decide

/-- Vector i17. -/
theorem test_ldRegs_partial : 
    halts (exec (.ldRegs 1) (withMem 0xFFF [0x5A] (withV [(0, 0x77), (1, 0x88)] { start with i := 0xFFF }))) .addressOutOfRange (fun t => v 0 0x5A t && v 1 0x88 t && t.i == 0xFFF) = true := by decide

/-- Vector t5. -/
theorem test_ldVxDt : 
    ok (exec (.ldVxDt 0xF) (withV [(0xF, 1)] { start with dt := 2 })) (fun t => v 0xF 2 t && t.dt == 2) = true := by decide

/-- Vector t2. -/
theorem test_ldDtVx : 
    ok (exec (.ldDtVx 5) (withV [(5, 0xFF)] start)) (fun t => t.dt == 0xFF && t.pc == 0x202) = true := by decide

/-- Vector t3. -/
theorem test_ldStVx : 
    ok (exec (.ldStVx 5) (withV [(5, 1)] start)) (fun t => t.st == 1 && t.soundActive && t.dt == 0) = true := by decide

/-- Vector d1. -/
theorem test_cls : 
    ok (exec (.cls) (start)) (fun t => t.command == some .clear && t.pc == 0x202) = true := by decide

/-- Vector d4. -/
theorem test_rnd : 
    ok (exec (.rnd 0xF 0x0F) ({ start with ports := { quiet with rnd := 0xA5 } })) (fun t => v 0xF 5 t) = true := by decide

/-- Vector d5. -/
theorem test_skp : 
    ok (exec (.skp 0) (withV [(0, 0x1A)] { start with ports := { quiet with keys := 0x0400 } })) (fun t => t.pc == 0x204) = true := by decide

/-- Vector d8. -/
theorem test_sknp : 
    ok (exec (.sknp 0) ({ start with ports := { quiet with keys := 0xFFFE } })) (fun t => t.pc == 0x204) = true := by decide

/-- Vector d9. -/
theorem test_ldVxK_wait : 
    ok (exec (.ldVxK 0xF) (withV [(0xF, 0x55)] start)) (fun t => v 0xF 0x55 t && t.pc == 0x200 && !t.proceed) = true := by decide

/-- Vector d10: key 0 is an event. -/
theorem test_ldVxK_event : 
    ok (exec (.ldVxK 0xF) (withV [(0xF, 0x55)] { start with ports := { quiet with keyEvent := some 0 } })) (fun t => v 0xF 0 t && t.pc == 0x202 && t.proceed) = true := by decide

/-- Vector d13. -/
theorem test_drw : 
    ok (exec (.drw 0 1 2) (withMem 0x300 [0xFF, 0x81] (withV [(0, 0x3E), (1, 0x1F)] { start with i := 0x300, ports := { quiet with collision := true } }))) (fun t => t.command == some (.draw 0x3E 0x1F [0xFF, 0x81]) && v 0xF 1 t && t.pc == 0x202) = true := by decide

/-- Vector d14. -/
theorem test_drw_out_of_range : 
    halts (exec (.drw 0 1 2) (withMem 0xFFF [0xFF] (withV [(0, 0x3E), (1, 0x1F), (0xF, 7)] { start with i := 0xFFF }))) .addressOutOfRange (fun t => t.command == none && v 0xF 7 t && t.pc == 0x200) = true := by decide

/-! ### Whole steps, the timers, the reference devices, the host -/

/-- Vector f1: 12 34 is JP 234. -/
theorem test_step_big_endian : 
    ok (step (ready 0x1234 quiet start)) (fun t => t.pc == 0x234 && t.cycle == 1) = true := by decide

/-- Example E5. -/
theorem test_step_unknown : 
    halts (step (ready 0xFFFF quiet (withV [(0, 1)] (withStack 1 0x206 { start with dt := 5 })))) .unknownOpcode
      (fun t => v 0 1 t && t.dt == 5 && t.stackEntry 0 == some 0x206 && t.pc == 0x200 && t.faultCode == 4) = true := by decide

/-- Vector c3: the second byte at 0x1000 does not exist. -/
theorem test_step_fetch_edge : 
    halts (step { start with pc := 0xFFF, schedule := [⟨0, false, [], quiet⟩] }) .addressOutOfRange
      (fun t => t.pc == 0xFFF) = true := by decide

/-- Vector f7. -/
theorem test_step_halted : 
    halts (step { start with fault := some .unknownOpcode, dt := 3 }) .unknownOpcode (fun t => t.dt == 3 && t.cycle == 0) = true := by decide

/-- Vector h5: with no program the first step is an illegal word. -/
theorem test_step_from_reset_empty : 
    halts (step State.reset) .unknownOpcode (fun t => t.pc == 0x200) = true := by decide

/-- A word placed where the next step fetches it is run from reset. -/
theorem test_step_first_instruction : 
    ok (step (State.reset.withFetchWord 16 0x6A2F)) (fun t => v 0xA 0x2F t && t.pc == 0x202) = true := by decide

/-- Vector t8: three ticks before the cycle. -/
theorem test_step_ticks : 
    ok (step ({ start with dt := 2, st := 5, schedule := [⟨3, false, [], quiet⟩] }.withFetchWord 16 0x1200))
      (fun t => t.dt == 0 && t.st == 2) = true := by decide

/-- Vectors t6 and t7. -/
theorem test_tick_saturates : (State.timerTick { start with dt := 2, st := 1 }).dt = 1 ∧
    (State.timerTick { start with dt := 2, st := 1 }).st = 0 ∧ (State.timerTick start).dt = 0 := by decide

/-- Vector r3: the start is (62, 31); row 31 has columns 62 and 63, nothing else is drawn. -/
theorem test_reference_draw_clips : 
    (FrameBuffer.draw .blank 0x3E 0x1F [0xFF, 0x81]).2 = false ∧
    (FrameBuffer.draw .blank 0x3E 0x1F [0xFF, 0x81]).1[31] = 0xC000000000000000#64 ∧
    (FrameBuffer.draw .blank 0x3E 0x1F [0xFF, 0x81]).1[0] = 0#64 := by decide

/-- Vector r5. -/
theorem test_reference_draw_wraps_start : (FrameBuffer.draw .blank 0x40 0x20 [0x80]).1[0] = 1#64 := by decide

/-- Rule R177: the release of a held key is an event, and the lowest number waits. -/
theorem test_reference_keypad : 
    ([.press 9, .press 3, .release 9, .release 3, .press 5].foldl KeypadDevice.move (.reference 0 none))
      = .reference 0x0020 (some 3) := by decide

/-- Log 19: a keypad just connected holds no key and offers no event. -/
theorem test_host_connect_keypad : 
    (start.hostApply .connectKeypad).1.keypad = .reference 0 none := by decide

/-- Rule R177: the release before the cycle is the event of FX0A, which takes it. -/
theorem test_step_connected_keypad : 
    ok (step ({ start with keypad := .reference 0x0080 none, schedule := [⟨0, false, [.release 7], quiet⟩] }.withFetchWord 16 0xF00A))
      (fun t => v 0 7 t && t.keypad == .reference 0 none) = true := by decide

/-- Vector h1. -/
theorem test_host_push_full : 
    ((withStack 16 0 start).hostApply (.stackPush 0x300)).2 = some .stackOverflow := by decide

/-- Vector h2. -/
theorem test_host_pop_empty : 
    (start.hostApply .stackPop).2 = some .stackUnderflow ∧ (start.hostApply .stackPop).1.faultCode = 0 := by decide

/-- Vector h3. -/
theorem test_host_read_edge : 
    ((start.memoryRead 0xFFF).toBool, (start.memoryRead 0x1000).toBool) = (true, false) := by decide

/-- Glyph 7 of program P7. -/
theorem test_font : [0x073, 0x074, 0x075, 0x076, 0x077].map start.byteAt = [0xF0, 0x10, 0x20, 0x40, 0x40] := by decide

/-- Rule R70. -/
theorem test_trace : (ready 0x8AB4 quiet start).trace = some "ADD VA, VB" := by decide

/-! ### For every statement with hypotheses, states and operands that meet them, each clause at its boundary -/

/-- The start state with a full stack of return addresses 0x206. -/
def full : State := withStack 16 0x206 start

/-- `Obligations.JumpGoesToItsTarget`: a jump to its own address. -/
theorem witness_JumpGoesToItsTarget : start.pc.toNat = (0x200 : Addr12).toNat := by decide

/-- `Obligations.CallPushesTheReturnAddress`: 15 entries, and 16. -/
theorem witness_CallPushesTheReturnAddress : (withStack 15 0x206 start).sp < 16 ∧ full.sp = 16 := by decide

/-- `Obligations.ReturnPopsTheNewestEntry`: one entry, 16 entries, and none. -/
theorem witness_ReturnPopsTheNewestEntry :
    ((withStack 1 0x206 start).sp ≠ 0 ∧ (withStack 1 0x206 start).stackEntry ((withStack 1 0x206 start).sp - 1) = some 0x206) ∧
    (full.sp ≠ 0 ∧ full.stackEntry (full.sp - 1) = some 0x206) ∧ start.sp = 0 := by decide

/-- `Obligations.ReturnContinuesAfterTheCall`: the sixteenth call, and a subroutine that changed other components. -/
theorem witness_ReturnContinuesAfterTheCall :
    exec (.call 0x300) (withStack 15 0x206 start)
      = .next { start with stack := 0x202 :: List.replicate 15 0x206, pc := 0x300 } ∧
    ({ start with stack := 0x202 :: List.replicate 15 0x206, pc := 0x310, i := 5 } : State).stack
      = ({ start with stack := 0x202 :: List.replicate 15 0x206, pc := 0x300 } : State).stack := ⟨rfl, rfl⟩

/-- `Obligations.DecimalDigitsAreStored`: the last block inside Memory, the first that leaves it, and one wholly outside;
the digits at addresses that exist. -/
theorem witness_DecimalDigitsAreStored :
    State.effAddr { start with i := 0xFFD } 2 < 4096 ∧ 4096 ≤ State.effAddr { start with i := 0xFFE } 2 ∧
    4096 ≤ State.effAddr { start with i := 0x1000 } 2 ∧ State.effAddr { start with i := 0xFFE } 1 < 4096 ∧
    ¬ inBlock (State.effAddr { start with i := 0xFFD } 0) 3 0xFFC ∧
    ¬ (inBlock (State.effAddr { start with i := 0xFFE } 0) 3 0x1000 ∧ 0x1000 < 4096) := by
  unfold inBlock; decide

/-- `Obligations.BlockStoreResult` and `Obligations.BlockLoadResult`: the last block of 16 inside Memory, the first that
leaves it, and one register at the capacity. -/
theorem witness_BlockStoreResult_BlockLoadResult :
    State.effAddr { start with i := 0xFF0 } (0xF : Reg).toNat < 4096 ∧
    4096 ≤ State.effAddr { start with i := 0xFF1 } (0xF : Reg).toNat ∧
    4096 ≤ State.effAddr { start with i := 0x1000 } (0 : Reg).toNat ∧
    State.effAddr { start with i := 0xFF1 } (0xE : Reg).toNat < 4096 ∧
    ¬ inBlock (State.effAddr { start with i := 0xFF0 } 0) 16 0xFEF ∧
    ¬ (inBlock (State.effAddr { start with i := 0xFF1 } 0) 16 0x1000 ∧ 0x1000 < 4096) := by
  unfold inBlock; decide

/-- `Obligations.StoredRegistersAreFetched`: program P4, two registers stored over the coming word. -/
theorem witness_StoredRegistersAreFetched :
    (∃ t, exec (.stRegs 1) (withV [(0, 0x12), (1, 0x0A)] { start with i := 0x208 }) = .next t) ∧
    (0 : Reg).toNat < (1 : Reg).toNat := ⟨⟨_, rfl⟩, by decide⟩

/-- `Obligations.BlockTransfersApplyTheIndexPolicy`: the last block inside Memory under each policy, and one that fails. -/
theorem witness_BlockTransfersApplyTheIndexPolicy :
    (∃ t, exec (.stRegs 0xF) { start with i := 0xFF0 } = .next t) ∧
    (∃ t, exec (.ldRegs 0xF) { start with i := 0xFF0, quirks := byX } = .next t) ∧
    (∃ t, exec (.ldRegs 0xF) { start with i := 0xFF0, quirks := leavesI } = .next t) ∧
    (∃ f, exec (.stRegs 0xF) { start with i := 0xFF1 } = .fault f) ∧
    (∃ f, exec (.ldRegs 0xF) { start with i := 0xFF1 } = .fault f) ∧
    (leavesI.memoryLeaveIUnchanged = true ∧ byX.memoryLeaveIUnchanged = false ∧ byX.memoryIncrementByX = true ∧
      start.quirks.memoryLeaveIUnchanged = false ∧ start.quirks.memoryIncrementByX = false) :=
  ⟨⟨_, rfl⟩, ⟨_, rfl⟩, ⟨_, rfl⟩, ⟨_, rfl⟩, ⟨_, rfl⟩, by decide⟩

/-- `Obligations.TicksBeforeACycleAreTimerTicks`: a running machine with timers at one. -/
theorem witness_TicksBeforeACycleAreTimerTicks : ({ start with dt := 1, st := 1 } : State).fault = none := by decide

/-- `Obligations.ClearScreenSendsOneCommand`: both displays. -/
theorem witness_ClearScreenSendsOneCommand :
    start.display = .external ∧ ({ start with display := .reference .blank true } : State).display = .reference .blank true :=
  ⟨rfl, rfl⟩

/-- The start state with the DisplayWait quirk and a display that is not ready. -/
def held : State := { start with quirks := waits, ports := { quiet with dispReady := false } }

/-- `Obligations.DrawSendsTheSprite`: a held draw; a draw with its last row at 0xFFF, on each display; no rows with I outside; two rows
from 0xFFF. -/
theorem witness_DrawSendsTheSprite :
    (held.quirks.displayWait = true ∧ held.ports.dispReady = false) ∧
    (¬ (start.quirks.displayWait = true ∧ start.ports.dispReady = false) ∧ start.display = .external ∧
      ({ start with display := .reference .blank true } : State).display = .reference .blank true ∧
      State.effAddr { start with i := 0xFFF } (1 : Nibble).toNat ≤ 4096) ∧
    ((0 : Nibble) = 0 ∧ 4096 < State.effAddr { start with i := 0x2000 } (0 : Nibble).toNat) ∧
    ((2 : Nibble) ≠ 0 ∧ 4096 < State.effAddr { start with i := 0xFFF } (2 : Nibble).toNat) := by decide

/-- `Obligations.WaitForKey`: no event, and key 0, the lowest. -/
theorem witness_WaitForKey :
    start.ports.keyEvent = none ∧
    ({ start with ports := { quiet with keyEvent := some 0 } } : State).ports.keyEvent = some 0 := by decide

/-- `Obligations.UnusedPortsHaveNoEffect`: samples that differ in every port the instruction does not use. -/
theorem witness_UnusedPortsHaveNoEffect :
    SameUsedPorts (.jp 0x200) start.quirks quiet ⟨0xFFFF, some 1, 0xA5, false, true⟩ ∧
    SameUsedPorts (.skp 0) start.quirks quiet ⟨0, some 1, 0xA5, false, true⟩ ∧
    SameUsedPorts (.ldVxK 0) start.quirks quiet ⟨0xFFFF, none, 0xA5, false, true⟩ ∧
    SameUsedPorts (.rnd 0 0xFF) start.quirks quiet ⟨0xFFFF, some 1, 0, false, true⟩ ∧
    SameUsedPorts (.drw 0 1 2) start.quirks quiet ⟨0xFFFF, some 1, 0xA5, false, false⟩ ∧
    SameUsedPorts (.drw 0 1 2) waits quiet ⟨0xFFFF, some 1, 0xA5, true, false⟩ :=
  ⟨trivial, rfl, rfl, rfl, ⟨nofun, rfl⟩, ⟨fun _ => rfl, rfl⟩⟩

/-- `Obligations.ReferenceDrawTogglesTheSprite`: pixels on the screen's edge. -/
theorem witness_ReferenceDrawTogglesTheSprite : 31 < 32 ∧ 63 < 64 := by decide

/-- `Obligations.ReferenceKeypadMoves`: key F held, with an event of a lower key waiting and with none. -/
theorem witness_ReferenceKeypadMoves :
    (0x8000#16).getLsbD (0xF : Nibble).toNat = true ∧ (some 3 : Option Nibble) = some 3 := by decide

/-- `Obligations.EncodeOfDecode`. -/
theorem witness_EncodeOfDecode : decodeWord 0xFF65 = some (.ldRegs 0xF) := by decide

/-- `Obligations.StepRunsTheDecodedInstruction`: a supplied cycle at the highest address a word can be fetched from. -/
theorem witness_StepRunsTheDecodedInstruction :
    (ready 0x6A2F quiet { start with pc := 0xFFE }).fault = none ∧
    fetch (ready 0x6A2F quiet { start with pc := 0xFFE }).beginCycle = .ok 0x6A2F ∧
    decodeWord 0x6A2F = some (.ldImm 0xA 0x2F) ∧
    (ready 0x6A2F quiet { start with pc := 0xFFE }).schedule = [⟨0, false, [], quiet⟩] ∧
    (ready 0x6A2F quiet { start with pc := 0xFFE }).display = .external ∧
    (ready 0x6A2F quiet { start with pc := 0xFFE }).keypad = .external := by decide

/-- `Obligations.FetchIsBigEndianAndChecked`: 0xFFE, and 0xFFF and 0x1000 in a running machine. -/
theorem witness_FetchIsBigEndianAndChecked :
    (State.pc { start with pc := 0xFFE }).toNat < 0xFFF ∧
    (start.fault = none ∧ 0xFFF ≤ (State.pc { start with pc := 0xFFF }).toNat ∧
      0xFFF ≤ (State.pc { start with pc := 0x1000 }).toNat) := by decide

/-- `Obligations.ConnectedDevicesAnswerThePorts`: both kinds of each device, with a refresh and a release supplied. -/
theorem witness_ConnectedDevicesAnswerThePorts :
    ({ start with schedule := [⟨0, true, [.release 0xF], quiet⟩] } : State).schedule = [⟨0, true, [.release 0xF], quiet⟩] ∧
    start.display = .external ∧ start.keypad = .external ∧
    ({ start with display := .reference .blank false } : State).display = .reference .blank false ∧
    ({ start with keypad := .reference 0x8000 (some 0) } : State).keypad = .reference 0x8000 (some 0) :=
  ⟨rfl, rfl, rfl, rfl, rfl⟩

/-- `Obligations.UnknownOpcodeHalts`: the illegal word next to RET. -/
theorem witness_UnknownOpcodeHalts :
    (ready 0x00EF quiet start).fault = none ∧ fetch (ready 0x00EF quiet start).beginCycle = .ok 0x00EF ∧
    decodeWord 0x00EF = none := by decide

/-- `Obligations.HaltedMachineDoesNothing`: a halted machine, and an operation that is no reset. -/
theorem witness_HaltedMachineDoesNothing :
    ({ start with fault := some .stackOverflow } : State).fault = some .stackOverflow ∧
    (∀ q m, HostOp.setPC 0x200 ≠ .reset q m) := ⟨rfl, nofun⟩

/-- `Obligations.FailedExecuteLeavesTheRest` and `Obligations.FaultKindOfInstruction`: each instruction that can fail, the
blocks with a first byte inside Memory; an address and a register next to what each block may have changed. -/
theorem witness_FailedExecute :
    (∃ f, exec (.call 0) full = .fault f) ∧ (∃ f, exec .ret start = .fault f) ∧
    (∃ f, exec (.ldB 0) { start with i := 0xFFE } = .fault f) ∧
    (∃ f, exec (.stRegs 1) { start with i := 0xFFF } = .fault f) ∧
    (∃ f, exec (.ldRegs 1) { start with i := 0xFFF } = .fault f) ∧
    (∃ f, exec (.drw 0 1 2) { start with i := 0xFFF } = .fault f) ∧
    ¬ (inBlock (State.effAddr { start with i := 0xFFE } 0) 3 0xFFD ∧ 0xFFD < 4096) ∧
    ¬ (inBlock (State.effAddr { start with i := 0xFFF } 0) ((1 : Reg).toNat + 1) 0x1000 ∧ 0x1000 < 4096) ∧
    ¬ ((1 : Reg).toNat ≤ (1 : Reg).toNat ∧ State.effAddr { start with i := 0xFFF } (1 : Reg).toNat < 4096) ∧
    ¬ ((2 : Reg).toNat ≤ (1 : Reg).toNat ∧ State.effAddr { start with i := 0xFFF } (2 : Reg).toNat < 4096) := by
  refine ⟨⟨_, rfl⟩, ⟨_, rfl⟩, ⟨_, rfl⟩, ⟨_, rfl⟩, ⟨_, rfl⟩, ⟨_, rfl⟩, ?_⟩
  unfold inBlock; decide

/-- `Obligations.NextPcIsOneOfTheListed`, `Obligations.OnlyStoresWriteMemory` and
`Obligations.WhoWritesStackIndexAndTimers`: cycles that do not fail, one of each kind named. -/
theorem witness_NextState :
    (∃ t, exec (.jp 0xFFF) start = .next t) ∧ (∃ t, exec (.jpV0 0xFFF) start = .next t) ∧
    (∃ t, exec (.call 0) (withStack 15 0x206 start) = .next t) ∧ (∃ t, exec .ret full = .next t) ∧
    (∃ t, exec (.seImm 0 0) start = .next t) ∧ (∃ t, exec (.sneImm 0 0) start = .next t) ∧
    (∃ t, exec (.seReg 0 1) start = .next t) ∧ (∃ t, exec (.sneReg 0 1) start = .next t) ∧
    (∃ t, exec (.skp 0xF) start = .next t) ∧ (∃ t, exec (.sknp 0xF) start = .next t) ∧
    (∃ t, exec (.ldVxK 0) start = .next t) ∧ (∃ t, exec (.drw 0 1 1) { start with i := 0xFFF } = .next t) ∧
    (∃ t, exec (.drw 0 1 1) held = .next t) ∧ (∃ t, exec (.ldImm 0xF 0xFF) start = .next t) :=
  ⟨⟨_, rfl⟩, ⟨_, rfl⟩, ⟨_, rfl⟩, ⟨_, rfl⟩, ⟨_, rfl⟩, ⟨_, rfl⟩, ⟨_, rfl⟩, ⟨_, rfl⟩, ⟨_, rfl⟩, ⟨_, rfl⟩, ⟨_, rfl⟩,
    ⟨_, rfl⟩, ⟨_, rfl⟩, ⟨_, rfl⟩⟩

/-- `Obligations.ProceedIsFalseOnlyInWaitCycles`: a cycle that goes on, and the two wait cycles. -/
theorem witness_ProceedIsFalseOnlyInWaitCycles :
    start.proceed = true ∧ held.proceed = true ∧ (∃ t, exec .cls start = .next t) ∧
    (∃ t, exec (.ldVxK 0) start = .next t) ∧ (∃ t, exec (.drw 0 1 0) held = .next t) :=
  ⟨rfl, rfl, ⟨_, rfl⟩, ⟨_, rfl⟩, ⟨_, rfl⟩⟩

/-- `Obligations.WhoWritesTheFlagRegister`: a carry, and VF named as the destination. -/
theorem witness_WhoWritesTheFlagRegister :
    ok (exec (.addReg 0 1) (withV [(0, 0xFF), (1, 1)] start)) (fun t => t.getV 0xF != (withV [(0, 0xFF), (1, 1)] start).getV 0xF)
      = true ∧
    ok (exec (.ldImm 0xF 1) start) (fun t => t.getV 0xF != start.getV 0xF) = true := by decide

/-- `Obligations.QuirksAreConstant` and `Obligations.HostAccessesDoNotLatch`: an operation that is no reset, and accesses
that fail at their boundaries. -/
theorem witness_HostOperations :
    (∀ q m, HostOp.stackPush 0x300 ≠ .reset q m) ∧ (full.hostApply (.stackPush 0x300)).2 = some .stackOverflow ∧
    (start.hostApply .stackPop).2 = some .stackUnderflow ∧
    (start.hostApply (.memoryWrite 0x1000 0xAA)).2 = some .addressOutOfRange := ⟨nofun, rfl, rfl, rfl⟩

/-- `Obligations.HostAccessorsWriteTheirComponent`: the last address, 15 and 16 entries, one entry and none. -/
theorem witness_HostAccessorsWriteTheirComponent :
    0xFFF < 4096 ∧ (withStack 15 0x206 start).sp < 16 ∧ full.sp = 16 ∧
    ((withStack 1 0x206 start).sp ≠ 0 ∧ (withStack 1 0x206 start).stackEntry ((withStack 1 0x206 start).sp - 1) = some 0x206) ∧
    start.sp = 0 := by decide

/-- `Obligations.StepKeepsTheInvariant` and `Obligations.HistoriesKeepTheInvariant`: a full stack, and bytes listed at both
ends of Memory. -/
theorem witness_Inv : (withMem 0xFFF [1] (withMem 0 [1] full)).Inv := ⟨by decide, by decide⟩

/-- `Obligations.StepKeepsThePcBound`: the highest `pc` and the highest return address. -/
theorem witness_PcBound : State.PcBound { start with pc := 0x10FE, stack := [0x1000] } := by
  refine ⟨by decide, fun a ha => ?_⟩
  rw [List.mem_singleton.mp ha]; decide

/-- `Obligations.ResetLeavesTheStatedValues` and `Obligations.FirstFetchIsAtTheOrigin`: the last address of an image, and an
image with no program. -/
theorem witness_ResetImages : 0xFFF < 4096 ∧ suggestedImage[0x200] = 0 ∧ suggestedImage[0x201] = 0 := by
  simp only [suggestedImage, Vector.getElem_ofFn]; decide

/-- `Obligations.ProgramIsLoadedAtTheOrigin`: the longest program that fits, and one byte more. -/
theorem witness_ProgramIsLoadedAtTheOrigin :
    (List.replicate 3584 (0 : Byte)).length ≤ 3584 ∧ 3584 < (List.replicate 3585 (0 : Byte)).length := by
  rw [List.length_replicate, List.length_replicate]; decide

/-- `Obligations.TerminalStatesStay`: a jump to itself at 0xFFE, the highest place for one. -/
theorem witness_TerminalStatesStay : (ready 0x1FFE quiet { start with pc := 0xFFE }).terminal :=
  ⟨rfl, by decide, by decide⟩

end Sys2Proof.Tests
end

/-! ## What one instruction does

`ExecEffect` lists once, one constructor per set of components written, the outcomes that `exec` can answer; `exec_effect`
ties it to `exec`, and the statements about who writes what and about the invariants are case splits over it. It leaves
open which value a component takes where no invariant needs it. -/

namespace Sys2Proof

/-- The register an instruction without a flag result names as its one destination (spec/10_state.md rule R11). -/
def Instr.dest : Instr → Option Reg
  | .ldImm x _ | .addImm x _ | .rnd x _ | .ldReg x _ | .orReg x _ | .andReg x _ | .xorReg x _ | .ldVxDt x => some x
  | _ => none

/-- The arithmetic and shift instructions, which write a flag result to VF (rule R12). -/
def Instr.writesFlag : Instr → Bool
  | .addReg _ _ | .subReg _ _ | .subnReg _ _ | .shr _ _ | .shl _ _ => true
  | _ => false

/-- The instructions that write I (rule R13). -/
def Instr.writesIndex : Instr → Bool
  | .ldI _ | .addI _ | .ldF _ | .stRegs _ | .ldRegs _ => true
  | _ => false

theorem Instr.eq_of_dest {i : Instr} {x : Reg} (h : i.dest = some x) :
    (∃ nn, i = .ldImm x nn ∨ i = .addImm x nn ∨ i = .rnd x nn) ∨
    (∃ y, i = .ldReg x y ∨ i = .orReg x y ∨ i = .andReg x y ∨ i = .xorReg x y) ∨ i = .ldVxDt x := by
  cases i <;> simp_all [Instr.dest]

theorem Instr.eq_of_writesFlag {i : Instr} (h : i.writesFlag = true) :
    ∃ x y, i = .addReg x y ∨ i = .subReg x y ∨ i = .subnReg x y ∨ i = .shr x y ∨ i = .shl x y := by
  cases i <;> simp_all [Instr.writesFlag]

theorem Instr.eq_of_writesIndex {i : Instr} (h : i.writesIndex = true) :
    (∃ nnn, i = .ldI nnn) ∨ ∃ x, i = .addI x ∨ i = .ldF x ∨ i = .stRegs x ∨ i = .ldRegs x := by
  cases i <;> simp_all [Instr.writesIndex]

end Sys2Proof

namespace Sys2Proof.Machine

/-- Where an instruction that changes nothing but `pc` can go from `s` (rule R84): past itself, past the next one too, or
to an address of 12 bits plus a byte. -/
def JumpTarget (s : State) (p : Word) : Prop :=
  p = s.pc + 2 ∨ p = s.pc + 4 ∨ ∃ (nnn : Addr12) (b : Byte), p = nnn.setWidth 16 + b.setWidth 16

/-- The outcomes of instruction `i` in `s`, by the components written. -/
inductive ExecEffect : Instr → State → Outcome → Prop
  | goes {i s p} (target : JumpTarget s p) : ExecEffect i s (.next (s.setPc p))
  | call {nnn s} (room : s.sp < 16) :
      ExecEffect (.call nnn) s (.next ({ s with stack := (s.pc + 2) :: s.stack }.setPc (nnn.setWidth 16)))
  | ret {s a rest} (top : s.stack = a :: rest) : ExecEffect .ret s (.next ({ s with stack := rest }.setPc a))
  | reg {i s x b} (dest : i.dest = some x) : ExecEffect i s (.next (s.setV x b).advance)
  | regFlag {i s x b f} (flag : i.writesFlag = true) : ExecEffect i s (.next (s.setVThenFlag x b f).advance)
  | index {i s a} (index : i.writesIndex = true) : ExecEffect i s (.next (s.setI a).advance)
  | delay {x s b} : ExecEffect (.ldDtVx x) s (.next (s.setDt b).advance)
  | sound {x s b} : ExecEffect (.ldStVx x) s (.next (s.setSt b).advance)
  | clear {s} : ExecEffect .cls s (.next s.displayClear.advance)
  | draw {x y n s rows} : ExecEffect (.drw x y n) s (.next (s.drawSprite x y rows))
  | key {x s b} : ExecEffect (.ldVxK x) s (.next (s.consumeKeyEvent.setV x b).advance)
  | wait {i s} : ExecEffect i s (.next s.waitCycle)
  | store {i s m a} (wf : s.mem.wf = true → Memory.wf m = true) (index : a = s.i ∨ i.writesIndex = true) :
      ExecEffect i s (.next { s with mem := m, i := a }.advance)
  | load {x s v a} (above : ∀ q : Reg, x.toNat < q.toNat → State.getV { s with v := v } q = s.getV q) :
      ExecEffect (.ldRegs x) s (.next { s with v := v, i := a }.advance)
  | halt {i s c} : ExecEffect i s (raise c s)
  | storeHalt {i s m c} (wf : s.mem.wf = true → Memory.wf m = true) : ExecEffect i s (raise c { s with mem := m })
  | loadHalt {x s v c} (above : ∀ q : Reg, x.toNat < q.toNat → State.getV { s with v := v } q = s.getV q) :
      ExecEffect (.ldRegs x) s (raise c { s with v := v })

/-! ### The instructions with more than one outcome -/

theorem skipIf_effect (i : Instr) (s : State) (c : Bool) : ExecEffect i s (.next (s.skipIf c)) := by
  cases c with
  | false => exact .goes (.inl rfl)
  | true => exact .goes (.inr (.inl rfl))

theorem execCall_effect (nnn : Addr12) (s : State) : ExecEffect (.call nnn) s (execCall nnn s) := by
  unfold execCall
  rw [push_eq]
  split
  · next room => exact .call room
  · exact .halt

theorem execRet_effect (s : State) : ExecEffect .ret s (execRet s) := by
  unfold execRet pop
  split
  · exact .halt
  · next top => exact .ret top

theorem execDrw_effect (x y : Reg) (n : Nibble) (s : State) : ExecEffect (.drw x y n) s (execDrw x y n s) := by
  unfold execDrw
  split
  · exact .wait
  · cases readBytes s (s.effAddr 0) n.toNat with
    | ok rows => exact .draw
    | error c => exact .halt

theorem execLdVxK_effect (x : Reg) (s : State) : ExecEffect (.ldVxK x) s (execLdVxK x s) := by
  unfold execLdVxK
  cases s.ports.keyEvent with
  | none => exact .wait
  | some k => exact .key

/-- A block store followed by a write of I that the instruction may do. -/
theorem storeBytes_effect {i : Instr} {s : State} (a : Nat) (bs : List Byte) {k : State → State}
    (hk : ∀ u : State, ∃ w, k u = { u with i := w }.advance ∧ (w = u.i ∨ i.writesIndex = true)) :
    ExecEffect i s (afterBlock (storeBytes s a bs) k) := by
  have hmem := storeBytes_only_mem s a bs
  have hwf := storeBytes_wf s a bs
  generalize storeBytes s a bs = r at hmem hwf ⊢
  obtain ⟨u, stop⟩ := r
  replace hmem : u = { s with mem := u.mem } := hmem
  cases stop with
  | none =>
    obtain ⟨w, hw, hi⟩ := hk u
    rw [show afterBlock (u, none) k = .next { s with mem := u.mem, i := w }.advance by
      rw [afterBlock, hw, hmem]]
    exact .store hwf (by rwa [hmem] at hi)
  | some c =>
    rw [show afterBlock (u, some c) k = raise c { s with mem := u.mem } by rw [afterBlock, ← hmem]]
    exact .storeHalt hwf

theorem execLdB_effect (x : Reg) (s : State) : ExecEffect (.ldB x) s (execLdB x s) :=
  storeBytes_effect _ _ fun u => ⟨u.i, rfl, .inl rfl⟩

theorem execStRegs_effect (x : Reg) (s : State) : ExecEffect (.stRegs x) s (execStRegs x s) :=
  storeBytes_effect _ _ fun u => ⟨_, congrArg State.advance (indexAfterBlock_eq u x), .inr rfl⟩

theorem execLdRegs_effect (x : Reg) (s : State) : ExecEffect (.ldRegs x) s (execLdRegs x s) := by
  unfold execLdRegs
  have hv := loadRegs_only_v s (s.effAddr 0) (regsUpTo x)
  have above (q : Reg) (hq : x.toNat < q.toNat) : (loadRegs s (s.effAddr 0) (regsUpTo x)).1.getV q = s.getV q := by
    rw [loadRegs_getV, if_neg (by omega)]
  generalize loadRegs s (s.effAddr 0) (regsUpTo x) = r at hv above ⊢
  obtain ⟨u, stop⟩ := r
  replace hv : u = { s with v := u.v } := hv
  replace above (q : Reg) (hq : x.toNat < q.toNat) : State.getV { s with v := u.v } q = s.getV q := above q hq
  cases stop with
  | none =>
    rw [afterBlock, indexAfterBlock_eq, hv]
    exact .load above
  | some c =>
    rw [afterBlock, hv]
    exact .loadHalt above

/-! ### Every instruction -/

/-- `exec` answers one of the outcomes of `ExecEffect`. -/
theorem exec_effect (i : Instr) (s : State) : ExecEffect i s (exec i s) := by
  cases i with
  | cls => exact .clear
  | ret => exact execRet_effect s
  | jp nnn => exact .goes (.inr (.inr ⟨nnn, 0, by simp⟩))
  | call nnn => exact execCall_effect nnn s
  | seImm x nn => exact skipIf_effect _ s _
  | sneImm x nn => exact skipIf_effect _ s _
  | seReg x y => exact skipIf_effect _ s _
  | sneReg x y => exact skipIf_effect _ s _
  | skp x => exact skipIf_effect _ s _
  | sknp x => exact skipIf_effect _ s _
  | jpV0 nnn => exact .goes (.inr (.inr ⟨nnn, _, rfl⟩))
  | ldImm x nn => exact .reg rfl
  | addImm x nn => exact .reg rfl
  | rnd x nn => exact .reg rfl
  | ldReg x y => exact .reg rfl
  | orReg x y => exact .reg rfl
  | andReg x y => exact .reg rfl
  | xorReg x y => exact .reg rfl
  | ldVxDt x => exact .reg rfl
  | addReg x y => exact .regFlag rfl
  | subReg x y => exact .regFlag rfl
  | subnReg x y => exact .regFlag rfl
  | shr x y => exact .regFlag rfl
  | shl x y => exact .regFlag rfl
  | ldI nnn => exact .index rfl
  | addI x => exact .index rfl
  | ldF x => exact .index rfl
  | ldDtVx x => exact .delay
  | ldStVx x => exact .sound
  | drw x y n => exact execDrw_effect x y n s
  | ldVxK x => exact execLdVxK_effect x s
  | ldB x => exact execLdB_effect x s
  | stRegs x => exact execStRegs_effect x s
  | ldRegs x => exact execLdRegs_effect x s

end Sys2Proof.Machine

/-! ## What one instruction and one cycle leave

The state an outcome leaves, `leaves u o`, halted or not, component by component (spec/10_state.md rules R12 to R18). -/

namespace Sys2Proof.Machine

@[simp] theorem leaves_next (u t : State) : leaves u (.next t) = t := rfl

@[simp] theorem leaves_raise (u s : State) (c : Condition) : leaves u (raise c s) = s.latch c := toFault_halted c _

@[simp] theorem leaves_stayHalted (u s : State) (c : Condition) :
    leaves u (stayHalted c s) = { s with proceed := false, command := none } := toFault_halted c _

/-- A claim about the state an outcome leaves is a claim about its next state and its halted state. -/
theorem next_and_fault_of_leaves {P : State → Prop} {u : State} {o : Outcome} (h : P (leaves u o)) :
    (∀ t, o = .next t → P t) ∧ ∀ f, o = .fault f → P f.halted :=
  ⟨fun t ht => by rwa [ht] at h, fun f hf => by rwa [hf] at h⟩

/-! ### One instruction -/

section
variable {i : Instr} {s u : State} {o : Outcome}

theorem ExecEffect.leaves_quirks_fontBase (h : ExecEffect i s o) :
    (leaves u o).quirks = s.quirks ∧ (leaves u o).fontBase = s.fontBase := by
  cases h with
  | halt | storeHalt | loadHalt => simp
  | _ => exact ⟨rfl, rfl⟩

theorem ExecEffect.leaves_mem_wf (h : ExecEffect i s o) (hs : s.mem.wf = true) : (leaves u o).mem.wf = true := by
  cases h with
  | store wf => exact wf hs
  | storeHalt wf => simpa using wf hs
  | halt | loadHalt => simpa using hs
  | _ => exact hs

/-- The stack stays, or 2NNN pushed `pc + 2` on fewer than 16 entries, or 00EE popped one (rule R15). -/
theorem ExecEffect.leaves_stack (h : ExecEffect i s o) :
    (leaves u o).stack = s.stack ∨
    ((∃ nnn, i = .call nnn) ∧ s.sp < 16 ∧ (leaves u o).stack = (s.pc + 2) :: s.stack) ∨
    (i = .ret ∧ ∃ a, s.stack = a :: (leaves u o).stack) := by
  cases h with
  | call room => exact .inr (.inl ⟨⟨_, rfl⟩, room, rfl⟩)
  | ret top => exact .inr (.inr ⟨rfl, _, top⟩)
  | halt | storeHalt | loadHalt => simp
  | _ => exact .inl rfl

/-- `pc` stays, or goes to a `JumpTarget`, or to a return address held (rules R14, R84). -/
theorem ExecEffect.leaves_pc (h : ExecEffect i s o) :
    (leaves u o).pc = s.pc ∨ JumpTarget s (leaves u o).pc ∨ (leaves u o).pc ∈ s.stack := by
  cases h with
  | goes target => exact .inr (.inl target)
  | @call nnn => exact .inr (.inl (.inr (.inr ⟨nnn, 0, by simp⟩)))
  | ret top => exact .inr (.inr (by simp [top]))
  | wait => exact .inl rfl
  | halt | storeHalt | loadHalt => simp
  | _ => exact .inr (.inl (.inl rfl))

theorem ExecEffect.leaves_index (h : ExecEffect i s o) : (leaves u o).i = s.i ∨ i.writesIndex = true := by
  cases h with
  | index index => exact .inr index
  | store _ index => exact index
  | load => exact .inr rfl
  | halt | storeHalt | loadHalt => simp
  | _ => exact .inl rfl

theorem ExecEffect.leaves_dt (h : ExecEffect i s o) : (leaves u o).dt = s.dt ∨ ∃ x, i = .ldDtVx x := by
  cases h with
  | delay => exact .inr ⟨_, rfl⟩
  | halt | storeHalt | loadHalt => simp
  | _ => exact .inl rfl

theorem ExecEffect.leaves_st (h : ExecEffect i s o) : (leaves u o).st = s.st ∨ ∃ x, i = .ldStVx x := by
  cases h with
  | sound => exact .inr ⟨_, rfl⟩
  | halt | storeHalt | loadHalt => simp
  | _ => exact .inl rfl

/-- A general register stays, or is the destination, or the instruction writes a flag result, or FX0A names it, or FX65
loads it (rules R11, R12). -/
theorem ExecEffect.leaves_getV (h : ExecEffect i s o) (q : Reg) :
    (leaves u o).getV q = s.getV q ∨ i.dest = some q ∨ i.writesFlag = true ∨ (∃ x y n, i = .drw x y n) ∨
    i = .ldVxK q ∨ ∃ x : Reg, q.toNat ≤ x.toNat ∧ i = .ldRegs x := by
  cases h with
  | @reg _ _ x _ dest =>
    by_cases hq : q = x
    · exact .inr (.inl (hq ▸ dest))
    · exact .inl (by simp [hq])
  | regFlag flag => exact .inr (.inr (.inl flag))
  | draw => exact .inr (.inr (.inr (.inl ⟨_, _, _, rfl⟩)))
  | @key x =>
    by_cases hq : q = x
    · simp [hq]
    · exact .inl (by simp [hq])
  | @load x _ _ _ above =>
    by_cases hq : q.toNat ≤ x.toNat
    · simp [hq]
    · exact .inl (above q (by omega))
  | @loadHalt x _ _ _ above =>
    by_cases hq : q.toNat ≤ x.toNat
    · simp [hq]
    · exact .inl (by simpa using above q (by omega))
  | halt => simp
  | storeHalt => exact .inl (by rw [leaves_raise]; rfl)
  | _ => exact .inl rfl

end

/-! ### One cycle -/

/-- What holds of a halted machine's state, of the cycle's start with a condition latched, and of what Execute leaves after
a successful fetch, holds of what a step leaves (rule R80). -/
theorem leaves_step_of {P : State → Prop} (u s : State) (stays : P { s with proceed := false, command := none })
    (fails : ∀ c, P (s.beginCycle.latch c))
    (runs : ∀ i raw, fetch s.beginCycle = .ok raw → P (leaves u (exec i s.beginCycle))) : P (leaves u (step s)) := by
  rcases step_cases s with ⟨c, -, h⟩ | ⟨-, c, -, h⟩ | ⟨-, -, -, -, h⟩ | ⟨-, raw, i, hraw, -, h⟩
  · simpa [h] using stays
  · simpa [h] using fails c
  · simpa [h] using fails .unknownOpcode
  · simpa [h] using runs i raw hraw

/-- A fetch succeeds only below 0xFFF (rule R81). -/
theorem pc_lt_of_fetch_ok {s : State} {raw : Word} (h : fetch s = .ok raw) : s.pc.toNat < 0xFFF := by
  rw [fetch_eq] at h
  split at h
  · omega
  · cases h

end Sys2Proof.Machine

/-! ## What a host operation does (spec/10_state.md rule R24)

One equation for each operation that can fail, and what every operation but Reset leaves unchanged. -/

namespace Sys2Proof.Machine

theorem hostApply_memoryWrite (s : State) (a : Nat) (b : Byte) :
    s.hostApply (.memoryWrite a b) =
      if a < 4096 then ({ s with mem := s.mem.set a b }, none) else (s, some .addressOutOfRange) := by
  rw [State.hostApply, memWrite_eq]
  split <;> rfl

theorem hostApply_stackPush (s : State) (a : Word) :
    s.hostApply (.stackPush a) =
      if s.sp < 16 then ({ s with stack := a :: s.stack }, none) else (s, some .stackOverflow) := by
  rw [State.hostApply, push_eq]
  split <;> rfl

theorem pop_of_nil {s : State} (h : s.stack = []) : pop s = .error .stackUnderflow := by rw [pop, h]

theorem pop_of_cons {s : State} {a : Word} {rest : List Word} (h : s.stack = a :: rest) :
    pop s = .ok (a, { s with stack := rest }) := by rw [pop, h]

theorem hostApply_stackPop_of_nil {s : State} (h : s.stack = []) :
    s.hostApply .stackPop = (s, some .stackUnderflow) := by rw [State.hostApply, pop_of_nil h]; rfl

theorem hostApply_stackPop_of_cons {s : State} {a : Word} {rest : List Word} (h : s.stack = a :: rest) :
    s.hostApply .stackPop = ({ s with stack := rest }, none) := by rw [State.hostApply, pop_of_cons h]; rfl

theorem reported_of_error {s : State} {r : Except Condition State} {c : Condition} (h : (reported s r).2 = some c) :
    (reported s r).1 = s := by
  cases r with
  | ok t => cases h
  | error d => rfl

/-- A host operation that reports a condition leaves the state (decision D29). -/
theorem hostApply_of_reported {s : State} {o : HostOp} {c : Condition} (h : (s.hostApply o).2 = some c) :
    (s.hostApply o).1 = s := by
  cases o with
  | memoryWrite | stackPush | stackPop => exact reported_of_error h
  | _ => cases h

/-- Only Reset writes the Quirks, FONT_BASE and the latch (rules R18, R209). -/
theorem hostApply_quirks_fontBase_fault (s : State) {o : HostOp} (ho : ∀ q m, o ≠ .reset q m) :
    (s.hostApply o).1.quirks = s.quirks ∧ (s.hostApply o).1.fontBase = s.fontBase ∧ (s.hostApply o).1.fault = s.fault := by
  cases o with
  | reset q m => exact absurd rfl (ho q m)
  | memoryWrite a b => rw [hostApply_memoryWrite]; split <;> exact ⟨rfl, rfl, rfl⟩
  | stackPush a => rw [hostApply_stackPush]; split <;> exact ⟨rfl, rfl, rfl⟩
  | stackPop =>
    cases hs : s.stack with
    | nil => rw [hostApply_stackPop_of_nil hs]; exact ⟨rfl, rfl, rfl⟩
    | cons a rest => rw [hostApply_stackPop_of_cons hs]; exact ⟨rfl, rfl, rfl⟩
  | _ => exact ⟨rfl, rfl, rfl⟩

theorem hostReset_mem (s : State) (q : Quirks) (img : Vector Byte 4096) :
    (s.hostReset q img).mem = Memory.ofImage img := by
  rw [State.hostReset]

theorem hostReset_inv (s : State) (q : Quirks) (img : Vector Byte 4096) : (s.hostReset q img).Inv :=
  ⟨by rw [hostReset_mem]; exact Memory.wf_ofImage img, Nat.zero_le _⟩

/-- Every host operation keeps the invariant. -/
theorem hostApply_inv {s : State} (h : s.Inv) (o : HostOp) : (s.hostApply o).1.Inv := by
  have ⟨hwf, hsp⟩ := h
  cases o with
  | memoryWrite a b =>
    rw [hostApply_memoryWrite]
    split
    · next ha => exact ⟨Memory.wf_set hwf ha, hsp⟩
    · exact h
  | stackPush a =>
    rw [hostApply_stackPush]
    split
    · next room => exact ⟨hwf, room⟩
    · exact h
  | stackPop =>
    cases hs : s.stack with
    | nil => rwa [hostApply_stackPop_of_nil hs]
    | cons a rest =>
      rw [hostApply_stackPop_of_cons hs]
      rw [State.sp, hs] at hsp
      exact ⟨hwf, Nat.le_of_succ_le hsp⟩
  | reset q m => exact hostReset_inv s q m
  | _ => exact (State.inv_congr rfl rfl).mpr h

end Sys2Proof.Machine

/-! ## The invariants (spec/10_state.md rules R14, R15; spec/20_memory.md rule R40) -/

namespace Sys2Proof.Machine

theorem leaves_exec_inv (u : State) (i : Instr) {s : State} (h : s.Inv) : (leaves u (exec i s)).Inv := by
  have ⟨hwf, hsp⟩ := h
  refine ⟨(exec_effect i s).leaves_mem_wf hwf, ?_⟩
  simp only [State.sp, Config.stackDepth] at hsp ⊢
  rcases (exec_effect i s).leaves_stack (u := u) with hst | ⟨-, room, hst⟩ | ⟨-, a, hst⟩
  · rwa [hst]
  · rw [hst]
    exact room
  · simp only [hst, List.length_cons] at hsp
    omega

theorem leaves_step_inv (u : State) {s : State} (h : s.Inv) : (leaves u (step s)).Inv := by
  have begin_inv : s.beginCycle.Inv := (State.inv_congr rfl rfl).mpr h
  exact leaves_step_of u s ((State.inv_congr rfl rfl).mpr h) (fun _ => (State.inv_congr rfl rfl).mpr h)
    fun i _ _ => leaves_exec_inv u i begin_inv

/-- A cycle on a given sample is a step on the state with that sample supplied, or a halted machine's answer. -/
theorem leaves_stepWith_inv (u : State) (hs : HostSample) {s : State} (h : s.Inv) : (leaves u (stepWith hs s)).Inv := by
  unfold stepWith
  split
  · rw [leaves_stayHalted]
    exact (State.inv_congr rfl rfl).mpr h
  · exact leaves_step_inv u ((State.inv_congr rfl rfl).mpr h)

theorem after_inv {s : State} (h : s.Inv) (e : HostEvent) : (s.after e).Inv := by
  cases e with
  | op o => exact hostApply_inv h o
  | cycle hs => exact leaves_stepWith_inv s hs h

/-! ### The bound of `pc` -/

theorem setWidth_add_setWidth_le (nnn : Addr12) (b : Byte) : (nnn.setWidth 16 + b.setWidth 16 : Word) ≤ 0x10FE#16 := by
  bv_omega

/-- From an address that can be fetched, `pc` goes no further than 0x10FE (rules R81, R123). -/
theorem JumpTarget.le {s : State} {p : Word} (h : JumpTarget s p) (hpc : s.pc.toNat < 0xFFF) : p ≤ 0x10FE#16 := by
  rcases h with rfl | rfl | ⟨nnn, b, rfl⟩
  · bv_omega
  · bv_omega
  · exact setWidth_add_setWidth_le nnn b

theorem leaves_exec_pcBound (u : State) (i : Instr) {s : State} (h : s.PcBound) (hpc : s.pc.toNat < 0xFFF) :
    (leaves u (exec i s)).PcBound := by
  have ⟨hbound, hstack⟩ := h
  have effect := exec_effect i s
  constructor
  · rcases effect.leaves_pc (u := u) with hp | hp | hp
    · rwa [hp]
    · exact hp.le hpc
    · exact BitVec.le_trans (hstack _ hp) (by decide)
  · rcases effect.leaves_stack (u := u) with hst | ⟨-, -, hst⟩ | ⟨-, a, hst⟩
    · rwa [hst]
    · rw [hst, List.forall_mem_cons]
      exact ⟨by bv_omega, hstack⟩
    · exact fun b hb => hstack b (hst ▸ List.mem_cons_of_mem a hb)

theorem leaves_step_pcBound (u : State) {s : State} (h : s.PcBound) : (leaves u (step s)).PcBound := by
  have begin_bound : s.beginCycle.PcBound := (State.pcBound_congr rfl rfl).mpr h
  exact leaves_step_of u s ((State.pcBound_congr rfl rfl).mpr h) (fun _ => (State.pcBound_congr rfl rfl).mpr h)
    fun i _ hraw => leaves_exec_pcBound u i begin_bound (pc_lt_of_fetch_ok hraw)

/-- Settles O48: every effect of an instruction keeps the canonical form, and only 2NNN pushes, below 16 entries. -/
theorem stepKeepsTheInvariant : Obligations.StepKeepsTheInvariant :=
  fun s h => next_and_fault_of_leaves (leaves_step_inv s h)

/-- Settles O50, by induction on the history. -/
theorem historiesKeepTheInvariant : Obligations.HistoriesKeepTheInvariant := by
  intro s es
  induction es generalizing s with
  | nil => exact id
  | cons e es ih => exact fun h => ih (s.after e) (after_inv h e)

/-- Settles O51: Execute begins with `pc` below 0xFFF, and from there no instruction leaves the bound. -/
theorem stepKeepsThePcBound : Obligations.StepKeepsThePcBound :=
  fun s h => next_and_fault_of_leaves (leaves_step_pcBound s h)

/-- Settles O49: the listed memory of State.reset is empty, and so is its stack. -/
theorem resetHasTheInvariants : Obligations.ResetHasTheInvariants :=
  ⟨⟨Memory.wf_reset, by decide⟩, by decide, fun _ ha => by cases ha⟩

end Sys2Proof.Machine

/-! ## Who writes what (spec/10_state.md rules R12 to R18) -/

namespace Sys2Proof.Machine

/-- Settles O45: `ExecEffect` names the writers of each component. -/
theorem whoWritesStackIndexAndTimers : Obligations.WhoWritesStackIndexAndTimers := by
  intro i s t h
  have effect := h ▸ exec_effect i s
  refine ⟨fun hcall hret => ?_, fun hldI hrest => ?_, fun hdt => ?_, fun hst => ?_⟩
  · rcases effect.leaves_stack (u := s) with hs | ⟨⟨nnn, hi⟩, -⟩ | ⟨hi, -⟩
    · exact hs
    · exact absurd hi (hcall nnn)
    · exact absurd hi hret
  · refine (effect.leaves_index (u := s)).resolve_right fun hi => ?_
    rcases Instr.eq_of_writesIndex hi with ⟨nnn, hi⟩ | ⟨x, hi⟩
    · exact hldI nnn hi
    · have ⟨haddI, hldF, hst, hld⟩ := hrest x
      simp_all
  · exact (effect.leaves_dt (u := s)).resolve_right fun ⟨x, hi⟩ => hdt x hi
  · exact (effect.leaves_st (u := s)).resolve_right fun ⟨x, hi⟩ => hst x hi

/-- Settles O46: VF stays unless the instruction is of one of the kinds of `ExecEffect.leaves_getV`. -/
theorem whoWritesTheFlagRegister : Obligations.WhoWritesTheFlagRegister := by
  intro i s t h hne
  have effect := h ▸ exec_effect i s
  rcases (effect.leaves_getV (u := s) 0xF).resolve_left hne with hdest | hflag | ⟨x, y, n, rfl⟩ | rfl | ⟨x, hx, rfl⟩
  · rcases Instr.eq_of_dest hdest with hi | hi | hi
    · exact .inr (.inl hi)
    · exact .inr (.inr (.inl hi))
    · exact .inr (.inr (.inr (.inl hi)))
  · obtain ⟨x, y, hi⟩ := Instr.eq_of_writesFlag hflag
    exact .inl ⟨x, y, by tauto⟩
  · exact .inl ⟨x, y, by simp⟩
  · simp
  · obtain rfl : x = 0xF := by bv_omega
    simp

/-- Settles O47: every effect of an instruction and of a host operation but Reset keeps the two components. -/
theorem quirksAreConstant : Obligations.QuirksAreConstant := by
  refine ⟨fun s => ?_, fun s o ho => ?_⟩
  · exact leaves_step_of (P := fun t => t.quirks = s.quirks ∧ t.fontBase = s.fontBase) s s ⟨rfl, rfl⟩
      (fun _ => ⟨rfl, rfl⟩) fun i _ _ => (exec_effect i s.beginCycle).leaves_quirks_fontBase
  · obtain ⟨hq, hf, -⟩ := hostApply_quirks_fontBase_fault s ho
    exact ⟨hq, hf⟩

end Sys2Proof.Machine

/-! ## Host accesses and Reset (spec/10_state.md rules R24, R25) -/

namespace Sys2Proof.Machine

/-- Settles O55: only Reset writes the latch, and a memory write is its equation on both sides of 4096. -/
theorem hostAccessesDoNotLatch : Obligations.HostAccessesDoNotLatch := by
  refine ⟨fun s o c h => hostApply_of_reported h, fun s o ho => ?_, fun s a k b => ?_, fun s a b => ?_⟩
  · obtain ⟨-, -, hfault⟩ := hostApply_quirks_fontBase_fault s ho
    exact hfault
  · rw [hostApply_memoryWrite]
    by_cases ha : a < 4096
    · simp only [ha, if_true, and_true, byteAt_setByte]
    · simp only [ha, if_false, and_false]
  · rw [hostApply_memoryWrite]
    split <;> rfl

/-- The entries below a newly pushed one keep their places, which count from the oldest (rule R15). -/
theorem stackEntry_of_cons {s t : State} {a : Word} (h : t.stack = a :: s.stack) :
    t.sp = s.sp + 1 ∧ t.stackEntry s.sp = some a ∧ ∀ k, k < s.sp → t.stackEntry k = s.stackEntry k := by
  refine ⟨by simp [State.sp, h], by simp [State.stackEntry, State.sp, h], fun k hk => ?_⟩
  rw [State.stackEntry, h, List.reverse_cons, List.getElem?_append_left (by simpa [State.sp] using hk), State.stackEntry]

theorem hostApply_memoryWrite_component (s : State) (a : Nat) (b : Byte) (ha : a < 4096) :
    ∃ t, s.hostApply (.memoryWrite a b) = (t, none) ∧ t.byteAt a = b ∧ (∀ k, k ≠ a → t.byteAt k = s.byteAt k) ∧
      t = { s with mem := t.mem } := by
  refine ⟨{ s with mem := s.mem.set a b }, ?_, ?_, fun k hk => ?_, rfl⟩
  · rw [hostApply_memoryWrite, if_pos ha]
  · rw [byteAt_setByte, if_pos rfl]
  · rw [byteAt_setByte, if_neg hk]

theorem hostApply_stackPush_component (s : State) (a : Word) (room : s.sp < 16) :
    ∃ t, s.hostApply (.stackPush a) = (t, none) ∧ t.sp = s.sp + 1 ∧ t.stackEntry s.sp = some a ∧
      (∀ k, k < s.sp → t.stackEntry k = s.stackEntry k) ∧ t = { s with stack := t.stack } := by
  obtain ⟨hsp, htop, hbelow⟩ := stackEntry_of_cons (s := s) (t := { s with stack := a :: s.stack }) rfl
  exact ⟨_, by rw [hostApply_stackPush, if_pos room], hsp, htop, hbelow, rfl⟩

theorem hostApply_stackPop_component (s : State) (a : Word) (hne : s.sp ≠ 0) (htop : s.stackEntry (s.sp - 1) = some a) :
    ∃ t, s.stackPop = .ok (a, t) ∧ s.hostApply .stackPop = (t, none) ∧ t.sp = s.sp - 1 ∧
      (∀ k, k < s.sp - 1 → t.stackEntry k = s.stackEntry k) ∧ t = { s with stack := t.stack } := by
  obtain ⟨top, rest, hs⟩ := List.exists_cons_of_length_pos (Nat.pos_of_ne_zero hne)
  obtain ⟨hsp, hentry, hbelow⟩ := stackEntry_of_cons (s := { s with stack := rest }) hs
  have hsp' : s.sp - 1 = State.sp { s with stack := rest } := by omega
  rw [hsp'] at htop ⊢
  obtain rfl : top = a := Option.some.inj (hentry.symm.trans htop)
  exact ⟨_, pop_of_cons hs, hostApply_stackPop_of_cons hs, rfl, fun k hk => (hbelow k hk).symm, rfl⟩

/-- Settles O59: one equation or lemma for each accessor. -/
theorem hostAccessorsWriteTheirComponent : Obligations.HostAccessorsWriteTheirComponent := fun s =>
  ⟨fun r b => ⟨s.setV r b, rfl, fun q => State.getV_setV s r q b, rfl⟩,
    fun _ => rfl, fun _ => rfl, fun _ => rfl, fun _ => rfl,
    hostApply_memoryWrite_component s, hostApply_stackPush_component s,
    fun a hfull => by rw [hostApply_stackPush, if_neg (by omega)],
    hostApply_stackPop_component s,
    fun hempty => hostApply_stackPop_of_nil (List.length_eq_zero_iff.mp hempty)⟩

/-- Settles O52: the memory built from the image reads as the image. -/
theorem resetLeavesTheStatedValues : Obligations.ResetLeavesTheStatedValues := by
  intro s q img t
  have hV (r : Reg) : t.getV r = 0 := Vector.getElem_replicate _
  have hmem (k : Nat) (hk : k < 4096) : t.byteAt k = img[k] := by
    rw [State.byteAt, hostReset_mem, Memory.get_ofImage, if_pos hk]
    simp [List.getD, hk]
  exact ⟨hV, rfl, rfl, rfl, rfl, rfl, rfl, hmem, rfl, rfl⟩

/-- The suggested image lists no cell: an unlisted byte reads as it. -/
theorem ofImage_suggestedImage : Memory.ofImage suggestedImage = [] := by
  rw [Memory.ofImage, List.filterMap_eq_nil_iff]
  intro a ha
  have ha : a < 4096 := List.mem_range.mp ha
  simp [suggestedImage, List.getD, ha]

/-- Settles O53: the two states differ at most in memory, and the suggested image lists no cell. -/
theorem resetStateIsAHostReset : Obligations.ResetStateIsAHostReset := by
  unfold Obligations.ResetStateIsAHostReset State.hostReset
  rw [ofImage_suggestedImage]
  rfl

end Sys2Proof.Machine

/-! ## Memory (spec/20_memory.md rules R40, R43, R47, R53) -/

namespace Sys2Proof.Machine

/-! ### Who writes memory (rule R40) -/

/-- An access that may fail leaves memory when what follows a completed one does. -/
theorem leaves_orRaise_mem {α : Type} (u s : State) {r : Except Condition α} {k : α → Outcome}
    (hk : ∀ a, r = .ok a → (leaves u (k a)).mem = s.mem) : (leaves u (orRaise s r k)).mem = s.mem := by
  cases r with
  | ok a => exact hk a rfl
  | error c => simp [orRaise]

theorem leaves_execCall_mem (u : State) (nnn : Addr12) (s : State) : (leaves u (execCall nnn s)).mem = s.mem := by
  refine leaves_orRaise_mem u s fun t ht => ?_
  rw [push_eq] at ht
  split at ht
  · cases ht
    rfl
  · cases ht

theorem leaves_execRet_mem (u s : State) : (leaves u (execRet s)).mem = s.mem := by
  refine leaves_orRaise_mem u s fun r hr => ?_
  cases hs : s.stack with
  | nil => rw [pop_of_nil hs] at hr; cases hr
  | cons a rest => rw [pop_of_cons hs] at hr; cases hr; rfl

theorem leaves_execDrw_mem (u : State) (x y : Reg) (n : Nibble) (s : State) :
    (leaves u (execDrw x y n s)).mem = s.mem := by
  unfold execDrw
  split
  · rfl
  · exact leaves_orRaise_mem u s fun _ _ => rfl

theorem leaves_execLdVxK_mem (u : State) (x : Reg) (s : State) : (leaves u (execLdVxK x s)).mem = s.mem := by
  unfold execLdVxK
  split <;> rfl

theorem leaves_execLdRegs_mem (u : State) (x : Reg) (s : State) : (leaves u (execLdRegs x s)).mem = s.mem := by
  have hload : (loadRegs s (s.effAddr 0) (regsUpTo x)).1.mem = s.mem := by rw [loadRegs_only_v]
  unfold execLdRegs afterBlock
  split
  · simpa [indexAfterBlock_eq] using hload
  · simpa using hload

/-- An instruction other than FX33 and FX55 leaves memory, halted or not. -/
theorem leaves_exec_mem (u s : State) {i : Instr} (h : ∀ x, i ≠ .ldB x ∧ i ≠ .stRegs x) :
    (leaves u (exec i s)).mem = s.mem := by
  cases i with
  | call nnn => exact leaves_execCall_mem u nnn s
  | ret => exact leaves_execRet_mem u s
  | drw x y n => exact leaves_execDrw_mem u x y n s
  | ldVxK x => exact leaves_execLdVxK_mem u x s
  | ldRegs x => exact leaves_execLdRegs_mem u x s
  | ldB x => exact absurd rfl (h x).1
  | stRegs x => exact absurd rfl (h x).2
  | _ => rfl

/-- Settles O44: every instruction but the two stores leaves the listed memory as it is. -/
theorem onlyStoresWriteMemory : Obligations.OnlyStoresWriteMemory := by
  intro i s t ht hi
  have hmem : t.mem = s.mem := by simpa [ht] using leaves_exec_mem s s hi
  exact ⟨hmem, State.byteAt_of_mem_eq hmem⟩

/-! ### A stored word is fetched (rules R43, R53) -/

/-- A completed FX55 lies within memory, and register `q` of its block stands at I + `q`. -/
theorem execStRegs_next {s t : State} {x : Reg} (h : exec (.stRegs x) s = .next t) :
    s.i.toNat + x.toNat < 4096 ∧ ∀ q : Reg, q.toNat ≤ x.toNat → t.byteAt (s.i.toNat + q.toNat) = s.getV q := by
  obtain ⟨hstop, rfl⟩ := afterBlock_next.mp (show execStRegs x s = .next t from h)
  have hends : s.i.toNat + (s.blockBytes x).length ≤ 4096 := by
    simpa [storeBytes_stop, State.effAddr] using hstop
  have hfits : s.i.toNat + x.toNat < 4096 := by
    rw [blockBytes_length] at hends
    omega
  refine ⟨hfits, fun q hq => ?_⟩
  calc ((storeBytes s (s.effAddr 0) (s.blockBytes x)).1.indexAfterBlock x).advance.byteAt (s.i.toNat + q.toNat)
      = (storeBytes s (s.effAddr 0) (s.blockBytes x)).1.byteAt (s.i.toNat + q.toNat) := by
        rw [indexAfterBlock_eq]; rfl
    _ = (s.blockBytes x).getD q.toNat 0 := by
        rw [storeBytes_byteAt, if_pos (by simp [State.effAddr]; omega)]
        simp [State.effAddr]
    _ = s.getV q := by rw [blockBytes_getD s x _ hq, BitVec.ofNat_toNat, BitVec.setWidth_eq]

/-- Settles O17: registers `k` and `k + 1` stand at I + `k` and the address after it, and the fetch puts the first high. -/
theorem storedRegistersAreFetched : Obligations.StoredRegistersAreFetched := by
  intro s t x k h hk
  obtain ⟨hfits, hbytes⟩ := execStRegs_next h
  have hsucc : (k + 1).toNat = k.toNat + 1 := by bv_omega
  have hpc : (s.i + k.setWidth 16).toNat = s.i.toNat + k.toNat := by bv_omega
  have hhi := hbytes k (by omega)
  have hlo := hbytes (k + 1) (by omega)
  rw [hsucc, ← Nat.add_assoc] at hlo
  rw [fetch_eq, State.setPc_pc, hpc, if_pos (by omega), State.byteAt_setPc, State.byteAt_setPc, hhi, hlo]

/-! ### Loading a program (rules R47, R232) -/

/-- A program is reported when, and only when, it does not fit between 0x200 and the end of memory. -/
theorem loadRom_report (s : State) (rom : List Byte) :
    (s.loadRom rom).2 = if rom.length ≤ 3584 then none else some .addressOutOfRange := by
  rw [State.loadRom, State.hostLoad, storeBytes_stop]
  refine if_congr ⟨?_, fun h => .inr ?_⟩ rfl rfl
  · rintro (rfl | h)
    · exact Nat.zero_le _
    · exact Nat.le_of_add_le_add_left (a := 512) h
  · exact Nat.add_le_add_left (k := 512) h

/-- The bytes after a load, reported or not: the program's at its addresses that exist, the old ones elsewhere. -/
theorem loadRom_byteAt (s : State) (rom : List Byte) (k : Nat) :
    (s.loadRom rom).1.byteAt k
      = if 0x200 ≤ k ∧ k < 0x200 + rom.length ∧ k < 4096 then rom.getD (k - 0x200) 0 else s.byteAt k :=
  storeBytes_byteAt s 0x200 k rom

/-- Settles O56: a load is a block store at 0x200, and 0x200 + 3584 is the end of memory. -/
theorem programIsLoadedAtTheOrigin : Obligations.ProgramIsLoadedAtTheOrigin := by
  refine fun s rom => ⟨fun hfits => ⟨?_, fun k => ?_⟩, fun hlong => ?_, storeBytes_only_mem s _ rom⟩
  · rw [loadRom_report, if_pos hfits]
  · rw [loadRom_byteAt]
    exact if_congr (by omega) rfl rfl
  · rw [loadRom_report, if_neg (by omega)]

end Sys2Proof.Machine

/-! ## Encoding (spec/30_encoding.md rules R61 to R67)

A row of the opcode map selects the words that show the row's fixed bits, and builds its instruction from the fields. So
selection and extraction together say that the word is the instruction's bit picture: `decodeWord` and `encode` are the
two directions of `decodeWord_eq_some_iff`. -/

namespace Sys2Proof

/-! ### A word and its fields (rule R61) -/

/-- The leading nibble of a word, `raw[15:12]`, by which rule R67 lists the illegal words. -/
def fieldOp (raw : Word) : Nibble := raw.extractLsb' 12 4

theorem append_eq_append_iff {k m : Nat} {a c : BitVec k} {b d : BitVec m} : a ++ b = c ++ d ↔ a = c ∧ b = d := by
  refine ⟨fun h => ?_, fun ⟨ha, hb⟩ => by rw [ha, hb]⟩
  have hb : b = d := by
    simpa only [BitVec.extractLsb'_append_eq_right] using congrArg (BitVec.extractLsb' 0 m) h
  exact ⟨(BitVec.append_left_inj d).mp (hb ▸ h), hb⟩

theorem nibbles_eq_nibbles_iff {a x y n a' x' y' n' : Nibble} :
    a ++ x ++ y ++ n = a' ++ x' ++ y' ++ n' ↔ a = a' ∧ x = x' ∧ y = y' ∧ n = n' := by
  rw [append_eq_append_iff, append_eq_append_iff, append_eq_append_iff, and_assoc, and_assoc]

/-- A byte compared with two nibbles side by side. -/
theorem append_eq_byte_iff {y n : Nibble} {b : Byte} :
    y ++ n = b ↔ y = b.extractLsb' 4 4 ∧ n = b.extractLsb' 0 4 := by
  rw [← append_eq_append_iff, BitVec.extractLsb'_append_extractLsb']

theorem fieldOp_append_fieldNNN (w : Word) : fieldOp w ++ fieldNNN w = w := BitVec.extractLsb'_append_extractLsb'

theorem fieldOp_append_fieldX_append_fieldNN (w : Word) : fieldOp w ++ fieldX w ++ fieldNN w = w := by
  rw [show fieldOp w ++ fieldX w = w.extractLsb' 8 8 from BitVec.extractLsb'_append_extractLsb'_eq_extractLsb' rfl]
  exact BitVec.extractLsb'_append_extractLsb'

theorem nibbles_of_fields (w : Word) : fieldOp w ++ fieldX w ++ fieldY w ++ fieldN w = w :=
  calc fieldOp w ++ fieldX w ++ fieldY w ++ fieldN w
      = fieldOp w ++ fieldX w ++ (fieldY w ++ fieldN w) := BitVec.append_assoc
    _ = fieldOp w ++ fieldX w ++ fieldNN w := by
        rw [show fieldY w ++ fieldN w = fieldNN w from BitVec.extractLsb'_append_extractLsb'_eq_extractLsb' rfl]
    _ = w := fieldOp_append_fieldX_append_fieldNN w

/-! ### The bit pictures (rule R62)

A word is an instruction's picture exactly when its bits under the mask are the picture's fixed bits and its fields are
the operands. -/

theorem picture_fixed {p w : Word} : p = w ↔ w &&& 0xFFFF#16 = p := by
  rw [show w &&& 0xFFFF#16 = w from BitVec.and_allOnes, eq_comm]

theorem picture_NNN {o : Nibble} {a : Addr12} {w : Word} :
    o ++ a = w ↔ w &&& 0xF000#16 = o ++ 0#12 ∧ fieldNNN w = a := by
  constructor
  · rintro rfl
    exact ⟨Laws.OwnRow.and_NNN o a, fieldNNN_append o a⟩
  · rintro ⟨h, rfl⟩
    rw [← fieldOp_append_fieldNNN w, Laws.OwnRow.and_NNN, append_eq_append_iff] at h
    rw [← h.1, fieldOp_append_fieldNNN]

theorem picture_XNN {o x : Nibble} {b : Byte} {w : Word} :
    o ++ x ++ b = w ↔ w &&& 0xF000#16 = o ++ 0#4 ++ 0#8 ∧ fieldX w = x ∧ fieldNN w = b := by
  constructor
  · rintro rfl
    exact ⟨Laws.OwnRow.and_XNN o x b, fieldX_append o x b, fieldNN_append o x b⟩
  · rintro ⟨h, rfl, rfl⟩
    rw [← fieldOp_append_fieldX_append_fieldNN w, Laws.OwnRow.and_XNN, append_eq_append_iff, append_eq_append_iff] at h
    obtain ⟨⟨ho, -⟩, -⟩ := h
    rw [← ho, fieldOp_append_fieldX_append_fieldNN]

theorem picture_X {o x : Nibble} {l : Byte} {w : Word} :
    o ++ x ++ l = w ↔ w &&& 0xF0FF#16 = o ++ 0#4 ++ l ∧ fieldX w = x := by
  constructor
  · rintro rfl
    exact ⟨Laws.OwnRow.and_X o x l, fieldX_append o x l⟩
  · rintro ⟨h, rfl⟩
    rw [← fieldOp_append_fieldX_append_fieldNN w, Laws.OwnRow.and_X, append_eq_append_iff, append_eq_append_iff] at h
    obtain ⟨⟨ho, -⟩, hl⟩ := h
    rw [← ho, ← hl, fieldOp_append_fieldX_append_fieldNN]

theorem picture_XY {o x y l : Nibble} {w : Word} :
    o ++ x ++ y ++ l = w ↔ w &&& 0xF00F#16 = o ++ 0#4 ++ 0#4 ++ l ∧ fieldX w = x ∧ fieldY w = y := by
  constructor
  · rintro rfl
    exact ⟨Laws.OwnRow.and_XY o x y l, fieldX_append_nibbles o x y l, fieldY_append o x y l⟩
  · rintro ⟨h, rfl, rfl⟩
    rw [← nibbles_of_fields w, Laws.OwnRow.and_XY, nibbles_eq_nibbles_iff] at h
    obtain ⟨ho, -, -, hl⟩ := h
    rw [← ho, ← hl, nibbles_of_fields]

theorem picture_XYN {o x y n : Nibble} {w : Word} :
    o ++ x ++ y ++ n = w ↔
      w &&& 0xF000#16 = o ++ 0#4 ++ 0#4 ++ 0#4 ∧ fieldX w = x ∧ fieldY w = y ∧ fieldN w = n := by
  constructor
  · rintro rfl
    exact ⟨Laws.OwnRow.and_XYN o x y n, fieldX_append_nibbles o x y n, fieldY_append o x y n, fieldN_append o x y n⟩
  · rintro ⟨h, rfl, rfl, rfl⟩
    rw [← nibbles_of_fields w, Laws.OwnRow.and_XYN, nibbles_eq_nibbles_iff] at h
    rw [← h.1, nibbles_of_fields]

/-! ### Decoding and encoding (rules R63, R65) -/

theorem decodeWord_eq_some_iff_row {w : Word} {i : Instr} :
    decodeWord w = some i ↔ ∃ r ∈ opcodeTable, r.selects w = true ∧ r.build w = i :=
  ⟨decodeWord_some, fun ⟨_, hr, hs, hb⟩ => hb ▸ decodeWord_of_selects hr hs⟩

/-- Decoding and encoding are inverse: of the table's rows only the instruction's own can build it, and that row selects
and builds exactly as the instruction's bit picture says. -/
theorem decodeWord_eq_some_iff {w : Word} {i : Instr} : decodeWord w = some i ↔ encode i = w := by
  simp only [decodeWord_eq_some_iff_row, opcodeTable, opcodeRows1, opcodeRows2, opcodeRows3, List.cons_append,
    List.nil_append, List.exists_mem_cons_iff, OpcodeRow.selects, beq_iff_eq]
  cases i
  case' cls | ret => rw [encode, picture_fixed (w := w)]
  case' jp | call | ldI | jpV0 => rw [encode, picture_NNN]
  case' seImm | sneImm | ldImm | addImm | rnd => rw [encode, picture_XNN]
  case' seReg | sneReg | ldReg | orReg | andReg | xorReg | addReg | subReg | shr | subnReg | shl =>
    rw [encode, picture_XY]
  case' drw => rw [encode, picture_XYN]
  case' skp | sknp | ldVxDt | ldVxK | ldDtVx | ldStVx | addI | ldF | ldB | stRegs | ldRegs =>
    rw [encode, picture_X]
  all_goals simp

/-- Settles O30, as one direction of `decodeWord_eq_some_iff`. -/
theorem decodeOfEncode : Obligations.DecodeOfEncode := fun _ => decodeWord_eq_some_iff.mpr rfl

/-- Settles O31, as the other direction of `decodeWord_eq_some_iff`. -/
theorem encodeOfDecode : Obligations.EncodeOfDecode := fun _ _ => decodeWord_eq_some_iff.mp

/-- Settles O34: each word is the encoding of its instruction, and the three texts are those instructions'. -/
theorem sampleWordsDecode : Obligations.SampleWordsDecode := by
  have decodes {w : Word} {i : Instr} (h : encode i = w) : decodeWord w = some i := decodeWord_eq_some_iff.mpr h
  refine ⟨decodes rfl, decodes rfl, decodes rfl, decodes rfl, decodes rfl, decodes rfl, ?_, ?_, ?_⟩
  · exact Option.map_eq_some_iff.mpr ⟨.addReg 0xA 0xB, decodes rfl, rfl⟩
  · exact Option.map_eq_some_iff.mpr ⟨.drw 0x1 0x2 0x5, decodes rfl, rfl⟩
  · exact Option.map_eq_some_iff.mpr ⟨.stRegs 0x3, decodes rfl, rfl⟩

/-! ### At most one row selects (rule R66) -/

/-- Of pairwise disjoint rows at most one selects a word: after the first that does, no other. -/
theorem filter_selects_length_le_one {rows : List OpcodeRow} (w : Word)
    (hd : tableWellFormed (rows.map fun r => (r.pattern, r.mask)) = true) :
    (rows.filter fun r => r.selects w).length ≤ 1 := by
  induction rows with
  | nil => exact Nat.zero_le 1
  | cons q rows ih =>
    simp only [List.map_cons, tableWellFormed, Bool.and_eq_true, List.all_eq_true] at hd
    obtain ⟨⟨-, hq⟩, hrows⟩ := hd
    by_cases hs : q.selects w = true
    · have hnone : (rows.filter fun r => r.selects w) = [] := List.filter_eq_nil_iff.mpr fun r hr =>
        Bool.not_eq_true _ ▸ not_both_select (hq _ (List.mem_map_of_mem hr)) hs
      rw [List.filter_cons, if_pos hs, hnone]
      exact Nat.le_refl 1
    · rw [List.filter_cons, if_neg hs]
      exact ih hrows

/-- Settles O32: the rows of the opcode map are pairwise disjoint. -/
theorem atMostOneRowSelects : Obligations.AtMostOneRowSelects :=
  fun w => filter_selects_length_le_one w opcodePairs_wellFormed

/-! ### The illegal words (rule R67) -/

theorem and_nibbles (a x y n a' x' y' n' : Nibble) :
    (a ++ x ++ y ++ n) &&& (a' ++ x' ++ y' ++ n') = (a &&& a') ++ (x &&& x') ++ (y &&& y') ++ (n &&& n') := by
  rw [BitVec.and_append, BitVec.and_append, BitVec.and_append]

/-- A row selects a word nibble by nibble. -/
theorem selects_nibbles {r : OpcodeRow} {a x y n : Nibble} :
    r.selects (a ++ x ++ y ++ n) = true ↔
      a &&& fieldOp r.mask = fieldOp r.pattern ∧ x &&& fieldX r.mask = fieldX r.pattern ∧
      y &&& fieldY r.mask = fieldY r.pattern ∧ n &&& fieldN r.mask = fieldN r.pattern := by
  rw [OpcodeRow.selects, beq_iff_eq]
  conv_lhs => rw [← nibbles_of_fields r.mask, ← nibbles_of_fields r.pattern, and_nibbles, nibbles_eq_nibbles_iff]

theorem nibble_cases : ∀ a : Nibble,
    a = 0x0 ∨ a = 0x1 ∨ a = 0x2 ∨ a = 0x3 ∨ a = 0x4 ∨ a = 0x5 ∨ a = 0x6 ∨ a = 0x7 ∨
    a = 0x8 ∨ a = 0x9 ∨ a = 0xA ∨ a = 0xB ∨ a = 0xC ∨ a = 0xD ∨ a = 0xE ∨ a = 0xF := by decide

/-- The last nibbles of the words 8XYn: those of the nine instructions, and the seven others. -/
theorem not_alu_nibble_iff : ∀ n : Nibble,
    (¬n = 0x0#4 ∧ ¬n = 0x1#4 ∧ ¬n = 0x2#4 ∧ ¬n = 0x3#4 ∧ ¬n = 0x4#4 ∧ ¬n = 0x5#4 ∧ ¬n = 0x6#4 ∧ ¬n = 0x7#4 ∧
        ¬n = 0xE#4) ↔
      (n = 0x8#4 ∨ n = 0x9#4 ∨ n = 0xA#4 ∨ n = 0xB#4 ∨ n = 0xC#4 ∨ n = 0xD#4 ∨ n = 0xF#4) := by decide

/-- Settles O33: written by nibbles, the table's rows leave under each leading nibble what rule R67 lists for it. -/
theorem illegalWords : Obligations.IllegalWords := by
  intro a x y n
  rw [decodeWord_none]
  simp only [opcodeTable, opcodeRows1, opcodeRows2, opcodeRows3, List.cons_append, List.nil_append,
    List.forall_mem_cons, ← Bool.not_eq_true, selects_nibbles, append_eq_byte_iff, fieldOp, fieldX, fieldY, fieldN,
    BitVec.reduceExtractLsb', Laws.OwnRow.and_F]
  rcases nibble_cases a with
    rfl | rfl | rfl | rfl | rfl | rfl | rfl | rfl | rfl | rfl | rfl | rfl | rfl | rfl | rfl | rfl <;>
  simp [imp_and, not_alu_nibble_iff]

end Sys2Proof

/-! ## The cycle (spec/40_cycle.md rules R80 to R88)

How a step goes in each of its cases, the condition an instruction can raise, and the two wait cycles. -/

namespace Sys2Proof.Machine

/-! ### The cases of a step (rules R80, R86) -/

theorem step_of_fault {s : State} {c : Condition} (h : s.fault = some c) : step s = stayHalted c s := by
  rw [step, h]

theorem stepWith_of_fault {s : State} {c : Condition} (hs : HostSample) (h : s.fault = some c) :
    stepWith hs s = stayHalted c s := by
  rw [stepWith, h]

theorem step_of_fetch_error {s : State} {c : Condition} (hrun : s.fault = none)
    (hfetch : fetch s.beginCycle = .error c) : step s = raise c s.beginCycle := by
  simp only [step, hrun, hfetch, orRaise]

theorem step_of_decodeWord {s : State} {raw : Word} {i : Instr} (hrun : s.fault = none)
    (hfetch : fetch s.beginCycle = .ok raw) (hdecode : decodeWord raw = some i) : step s = exec i s.beginCycle := by
  simp only [step, hrun, hfetch, orRaise, hdecode]

/-- The start of a cycle on a supplied sample, with black-box devices (log 2, 3, 4, 10). -/
theorem beginCycle_of_external {s : State} {h : HostSample} {rest : List HostSample} (hsupply : s.schedule = h :: rest)
    (hdisplay : s.display = .external) (hkeypad : s.keypad = .external) :
    s.beginCycle =
      { s with dt := tickTimes h.ticks s.dt, st := tickTimes h.ticks s.st, ports := h.ports, proceed := true,
               command := none, schedule := rest, cycle := s.cycle + 1 } := by
  simp [State.beginCycle, State.nextSample, samplePorts, hsupply, hdisplay, hkeypad]

/-- Settles O35: the start of the cycle is a record update, which a supplied sample and black-box devices spell out. -/
theorem stepRunsTheDecodedInstruction : Obligations.StepRunsTheDecodedInstruction :=
  ⟨fun _ _ _ hrun hfetch hdecode => step_of_decodeWord hrun hfetch hdecode,
    fun _ => ⟨_, _, _, _, _, _, _, rfl⟩,
    fun _ _ _ => beginCycle_of_external⟩

/-- Settles O38: a latched condition is the first thing a step looks at, and of the host operations only Reset writes it. -/
theorem haltedMachineDoesNothing : Obligations.HaltedMachineDoesNothing := by
  refine fun s c hs h => ⟨step_of_fault h, stepWith_of_fault hs h, fun o ho => ?_, fun _ _ => rfl⟩
  obtain ⟨-, -, hfault⟩ := hostApply_quirks_fontBase_fault s ho
  rw [hfault, h]

/-! ### Fetch (rules R43, R81) -/

theorem append_toNat (hi lo : Byte) : (hi ++ lo).toNat = hi.toNat * 256 + lo.toNat := by
  rw [BitVec.toNat_append, ← Nat.shiftLeft_add_eq_or_of_lt lo.isLt, Nat.shiftLeft_eq]

/-- Settles O36: `fetch_eq` gives both sides of 0xFFF, and the start of a cycle leaves `pc`. -/
theorem fetchIsBigEndianAndChecked : Obligations.FetchIsBigEndianAndChecked := by
  refine ⟨fun s hpc => ⟨_, ?_, append_toNat _ _⟩, fun s hrun hpc => step_of_fetch_error hrun ?_⟩
  · rw [fetch_eq, if_pos (by omega)]
  · rw [fetch_eq, State.beginCycle_pc, if_neg (by omega)]

/-! ### No refusal (rule R80) -/

theorem raise_ne_refused (c : Condition) (s : State) (r : Refusal) : raise c s ≠ .refused r := by simp [raise]

theorem stayHalted_ne_refused (c : Condition) (s : State) (r : Refusal) : stayHalted c s ≠ .refused r := by
  simp [stayHalted]

theorem ExecEffect.ne_refused {i : Instr} {s : State} {o : Outcome} (h : ExecEffect i s o) (r : Refusal) :
    o ≠ .refused r := by
  cases h with
  | halt | storeHalt | loadHalt => exact raise_ne_refused _ _ r
  | _ => exact nofun

/-- Settles O39: a step halts or is an `exec`, and no effect of an instruction is a refusal. -/
theorem stepNeverRefuses : Obligations.StepNeverRefuses := by
  intro s r
  rcases step_cases s with ⟨c, -, h⟩ | ⟨-, c, -, h⟩ | ⟨-, -, -, -, h⟩ | ⟨-, -, i, -, -, h⟩ <;> rw [h]
  · exact stayHalted_ne_refused c s r
  · exact raise_ne_refused c _ r
  · exact raise_ne_refused _ _ r
  · exact (exec_effect i _).ne_refused r

/-! ### The condition an instruction can raise (rule R88) -/

theorem push_error {s : State} {a : Word} {c : Condition} (h : push s a = .error c) : c = .stackOverflow := by
  rw [push_eq] at h
  split at h <;> cases h
  rfl

theorem pop_error {s : State} {c : Condition} (h : pop s = .error c) : c = .stackUnderflow := by
  cases hs : s.stack with
  | nil => rw [pop_of_nil hs] at h; cases h; rfl
  | cons a rest => rw [pop_of_cons hs] at h; cases h

theorem readBytes_error {s : State} {a n : Nat} {c : Condition} (h : readBytes s a n = .error c) :
    c = .addressOutOfRange := by
  rw [readBytes_eq] at h
  split at h <;> cases h
  rfl

theorem storeBytes_stopped {s : State} {a : Nat} {bs : List Byte} {c : Condition} (h : (storeBytes s a bs).2 = some c) :
    c = .addressOutOfRange := by
  rw [storeBytes_stop] at h
  split at h <;> cases h
  rfl

theorem loadRegs_stopped {s : State} {a : Nat} {rs : List Reg} {c : Condition} (h : (loadRegs s a rs).2 = some c) :
    c = .addressOutOfRange := by
  rw [loadRegs_stop] at h
  split at h <;> cases h
  rfl

theorem raise_fault {s : State} {c : Condition} {f : Fault} (h : raise c s = .fault f) : f = c.toFault f.halted := by
  obtain rfl := raise_eq_fault.mp h
  rw [toFault_halted]

/-- An access that can only fail with `c`, before what cannot fail, ends in no fault but `c`. -/
theorem orRaise_fault {α : Type} {s : State} {r : Except Condition α} {k : α → State} {c : Condition} {f : Fault}
    (hr : ∀ d, r = .error d → d = c) (h : orRaise s r (fun a => .next (k a)) = .fault f) : f = c.toFault f.halted := by
  cases r with
  | ok a => cases h
  | error d =>
    obtain rfl := hr d rfl
    exact raise_fault h

/-- A block that can only stop with `c` ends in no fault but `c`. -/
theorem afterBlock_fault {r : State × Option Condition} {k : State → State} {c : Condition} {f : Fault}
    (hr : ∀ d, r.2 = some d → d = c) (h : afterBlock r k = .fault f) : f = c.toFault f.halted := by
  obtain ⟨u, stop⟩ := r
  cases stop with
  | none => cases h
  | some d =>
    obtain rfl := hr d rfl
    exact raise_fault h

theorem execDrw_fault {s : State} {x y : Reg} {n : Nibble} {f : Fault} (h : execDrw x y n s = .fault f) :
    f = .addressOutOfRange f.halted := by
  unfold execDrw at h
  split at h
  · cases h
  · exact orRaise_fault (fun _ => readBytes_error) h

theorem execStRegs_fault {s : State} {x : Reg} {f : Fault} (h : execStRegs x s = .fault f) :
    f = .addressOutOfRange f.halted := afterBlock_fault (fun _ => storeBytes_stopped) h

theorem execLdRegs_fault {s : State} {x : Reg} {f : Fault} (h : execLdRegs x s = .fault f) :
    f = .addressOutOfRange f.halted := afterBlock_fault (fun _ => loadRegs_stopped) h

/-- Settles O41: six instructions make an access that can fail, and each access fails with one condition. -/
theorem faultKindOfInstruction : Obligations.FaultKindOfInstruction := by
  intro i s f h
  cases i with
  | call nnn => exact .inl ⟨⟨nnn, rfl⟩, orRaise_fault (fun _ => push_error) h⟩
  | ret => exact .inr (.inl ⟨rfl, orRaise_fault (fun _ => pop_error) h⟩)
  | ldB x => exact .inr (.inr ⟨.inl ⟨x, .inl rfl⟩, afterBlock_fault (fun _ => storeBytes_stopped) h⟩)
  | stRegs x => exact .inr (.inr ⟨.inl ⟨x, .inr (.inl rfl)⟩, execStRegs_fault h⟩)
  | ldRegs x => exact .inr (.inr ⟨.inl ⟨x, .inr (.inr rfl)⟩, execLdRegs_fault h⟩)
  | drw x y n => exact .inr (.inr ⟨.inr ⟨x, y, n, rfl⟩, execDrw_fault h⟩)
  | _ => cases h

/-! ### `pc` and `proceed` after a cycle that did not fail (rules R84, R85)

The instructions that can fail or wait, by their next states; the others have one next state. -/

section
variable {s t : State} {x y : Reg}

theorem execCall_pc_proceed {nnn : Addr12} (h : execCall nnn s = .next t) :
    t.pc = nnn.setWidth 16 ∧ t.proceed = s.proceed := by
  obtain ⟨u, hu, h⟩ := orRaise_next.mp h
  rw [push_eq] at hu
  split at hu <;> cases hu
  cases h
  exact ⟨rfl, rfl⟩

theorem execRet_pc_proceed (h : execRet s = .next t) :
    s.stackEntry (s.sp - 1) = some t.pc ∧ t.proceed = s.proceed := by
  obtain ⟨r, hr, h⟩ := orRaise_next.mp h
  cases hs : s.stack with
  | nil => rw [pop_of_nil hs] at hr; cases hr
  | cons a rest =>
    rw [pop_of_cons hs] at hr
    cases hr
    cases h
    obtain ⟨hsp, htop, -⟩ := stackEntry_of_cons (s := { s with stack := rest }) hs
    exact ⟨by rw [hsp]; exact htop, rfl⟩

@[simp] theorem storeBytes_pc (s : State) (a : Nat) (bs : List Byte) : (storeBytes s a bs).1.pc = s.pc := by
  rw [storeBytes_only_mem]

@[simp] theorem storeBytes_proceed (s : State) (a : Nat) (bs : List Byte) :
    (storeBytes s a bs).1.proceed = s.proceed := by
  rw [storeBytes_only_mem]

@[simp] theorem loadRegs_pc (s : State) (a : Nat) (rs : List Reg) : (loadRegs s a rs).1.pc = s.pc := by
  rw [loadRegs_only_v]

@[simp] theorem loadRegs_proceed (s : State) (a : Nat) (rs : List Reg) : (loadRegs s a rs).1.proceed = s.proceed := by
  rw [loadRegs_only_v]

@[simp] theorem indexAfterBlock_pc (s : State) (x : Reg) : (s.indexAfterBlock x).pc = s.pc := by
  rw [indexAfterBlock_eq]

@[simp] theorem indexAfterBlock_proceed (s : State) (x : Reg) : (s.indexAfterBlock x).proceed = s.proceed := by
  rw [indexAfterBlock_eq]

theorem execLdB_pc_proceed (h : execLdB x s = .next t) : t.pc = s.pc + 2 ∧ t.proceed = s.proceed := by
  obtain ⟨-, rfl⟩ := afterBlock_next.mp h
  simp

theorem execStRegs_pc_proceed (h : execStRegs x s = .next t) : t.pc = s.pc + 2 ∧ t.proceed = s.proceed := by
  obtain ⟨-, rfl⟩ := afterBlock_next.mp h
  simp

theorem execLdRegs_pc_proceed (h : execLdRegs x s = .next t) : t.pc = s.pc + 2 ∧ t.proceed = s.proceed := by
  obtain ⟨-, rfl⟩ := afterBlock_next.mp h
  simp

theorem drawHeld_iff : s.drawHeld = true ↔ s.quirks.displayWait = true ∧ s.ports.dispReady = false := by
  simp [State.drawHeld]

theorem execDrw_next {n : Nibble} (h : execDrw x y n s = .next t) :
    s.drawHeld = true ∧ t = s.waitCycle ∨ ¬ s.drawHeld = true ∧ ∃ rows, t = s.drawSprite x y rows := by
  unfold execDrw at h
  split at h
  · next held => cases h; exact .inl ⟨held, rfl⟩
  · next ready =>
    obtain ⟨rows, -, h⟩ := orRaise_next.mp h
    cases h
    exact .inr ⟨ready, rows, rfl⟩

theorem execLdVxK_next (h : execLdVxK x s = .next t) :
    s.ports.keyEvent = none ∧ t = s.waitCycle ∨
    s.ports.keyEvent ≠ none ∧ ∃ b, t = (s.consumeKeyEvent.setV x b).advance := by
  unfold execLdVxK at h
  cases hk : s.ports.keyEvent with
  | none => rw [hk] at h; cases h; exact .inl ⟨rfl, rfl⟩
  | some k => rw [hk] at h; cases h; exact .inr ⟨nofun, _, rfl⟩

end

/-- Settles O42: an instruction that neither fails nor waits has its `pc` by `advance`, `skipIf` or `setPc`. -/
theorem nextPcIsOneOfTheListed : Obligations.NextPcIsOneOfTheListed := by
  intro i s t h
  cases i with
  | jp nnn => cases h; exact BitVec.toNat_setWidth_of_le (by decide)
  | call nnn =>
    obtain ⟨hpc, -⟩ := execCall_pc_proceed h
    exact hpc ▸ BitVec.toNat_setWidth_of_le (by decide)
  | jpV0 nnn =>
    cases h
    simp only [State.setPc_pc]
    rw [BitVec.toNat_add, BitVec.toNat_setWidth_of_le (by decide), BitVec.toNat_setWidth_of_le (by decide)]
  | ret => exact (execRet_pc_proceed h).1
  | seImm | sneImm | seReg | sneReg | skp | sknp => cases h; simp
  | ldVxK x =>
    rcases execLdVxK_next h with ⟨hk, rfl⟩ | ⟨hk, b, rfl⟩
    · exact (if_pos hk).symm
    · exact (if_neg hk).symm
  | drw x y n =>
    simp only [← drawHeld_iff]
    rcases execDrw_next h with ⟨held, rfl⟩ | ⟨ready, rows, rfl⟩
    · exact (if_pos held).symm
    · exact (if_neg ready).symm
  | ldB x => exact (execLdB_pc_proceed h).1
  | stRegs x => exact (execStRegs_pc_proceed h).1
  | ldRegs x => exact (execLdRegs_pc_proceed h).1
  | _ => cases h; rfl

/-- An instruction that never waits leaves `proceed`. -/
theorem exec_next_proceed {i : Instr} {s t : State} (h : exec i s = .next t) (hkey : ∀ x, i ≠ .ldVxK x)
    (hdraw : ∀ x y n, i ≠ .drw x y n) : t.proceed = s.proceed := by
  cases i with
  | call nnn => exact (execCall_pc_proceed h).2
  | ret => exact (execRet_pc_proceed h).2
  | ldB x => exact (execLdB_pc_proceed h).2
  | stRegs x => exact (execStRegs_pc_proceed h).2
  | ldRegs x => exact (execLdRegs_pc_proceed h).2
  | ldVxK x => exact absurd rfl (hkey x)
  | drw x y n => exact absurd rfl (hdraw x y n)
  | _ => cases h; rfl

/-- Settles O43: the two instructions that can wait, each with its next states, and the others by `exec_next_proceed`. -/
theorem proceedIsFalseOnlyInWaitCycles : Obligations.ProceedIsFalseOnlyInWaitCycles := by
  intro i s t hp h
  rw [← drawHeld_iff]
  by_cases hkey : ∃ x, i = .ldVxK x
  · obtain ⟨x, rfl⟩ := hkey
    rcases execLdVxK_next h with ⟨hk, rfl⟩ | ⟨hk, b, rfl⟩ <;> simp [hk, hp]
  by_cases hdraw : ∃ x y n, i = .drw x y n
  · obtain ⟨x, y, n, rfl⟩ := hdraw
    rcases execDrw_next h with ⟨held, rfl⟩ | ⟨ready, rows, rfl⟩
    · simp [held]
    · simp [ready, hp, State.drawSprite]
  have hstay : t.proceed = true := by
    rw [exec_next_proceed h (fun x hi => hkey ⟨x, hi⟩) (fun x y n hi => hdraw ⟨x, y, n, hi⟩), hp]
  simp [hstay, hkey, hdraw]

end Sys2Proof.Machine

/-! ## Register load, arithmetic and logic (spec/41_alu.md rules R100 to R112)

The two shapes in which the family completes, then the results and flags in the exact arithmetic of rule R111. -/

namespace Sys2Proof.Machine

theorem wordOf_of_encode {i : Instr} {w : Word} (h : encode i = w) : WordOf i w := ⟨h, decodeWord_eq_some_iff.mpr h⟩

section
variable {s : State} {o : Outcome} {x : Reg} {b f : Byte}

theorem writesReg_of_next (h : o = .next (s.setV x b).advance) : WritesReg s o x b :=
  ⟨_, h, (State.getV_setV s x · b), rfl, rfl, fun _ => rfl⟩

/-- The flag is written last (rule R112). -/
theorem writesRegFlag_of_next (h : o = .next (s.setVThenFlag x b f).advance) : WritesRegFlag s o x b f :=
  ⟨_, h, (State.getV_setVThenFlag s x · b f), rfl, rfl, fun _ => rfl⟩

end

/-! ### Exact arithmetic (rule R111) -/

theorem ofNat_mod_256 (n : Nat) : BitVec.ofNat 8 (n % 256) = BitVec.ofNat 8 n :=
  BitVec.eq_of_toNat_eq (Nat.mod_mod n 256)

theorem sub_eq_ofNat (a b : Byte) :
    a - b = .ofNat 8 (if a.toNat ≥ b.toNat then a.toNat - b.toNat else a.toNat + 256 - b.toNat) := by
  split <;> bv_omega

theorem ushiftRight_one_eq_ofNat (t : Byte) : t >>> 1 = .ofNat 8 (t.toNat / 2) := by
  bv_omega

theorem shiftLeft_one_eq_ofNat (t : Byte) : t <<< 1 = .ofNat 8 (t.toNat * 2 % 256) := by
  bv_omega

/-! ### The flags (rules R106 to R110) -/

theorem flagByte_decide (p : Prop) [Decidable p] : flagByte (decide p) = if p then 1 else 0 := by
  simp only [flagByte, decide_eq_true_eq]

/-- The bit shifted out to the right says whether the operand is odd. -/
theorem shrFlag_eq (t : Byte) : shrFlag t = if t.toNat % 2 = 1 then 1 else 0 := by
  rw [shrFlag, BitVec.getLsbD, Nat.testBit_zero, flagByte_decide]

/-- The bit shifted out to the left says whether the operand is at least 128. -/
theorem shlFlag_eq (t : Byte) : shlFlag t = if 128 ≤ t.toNat then 1 else 0 := by
  rw [shlFlag, show t.getLsbD 7 = t.msb from (BitVec.msb_eq_getLsbD_last t).symm, BitVec.msb_eq_decide, flagByte_decide]

/-! ### The statements of the family -/

/-- Settles O1: each of the three is one register write, and the sum is reduced by the register's width. -/
theorem loadAndAddImmediateResults : Obligations.LoadAndAddImmediateResults := by
  refine fun s x y nn => ⟨⟨wordOf_of_encode rfl, writesReg_of_next rfl⟩, ⟨wordOf_of_encode rfl, ?_⟩,
    wordOf_of_encode rfl, writesReg_of_next rfl⟩
  rw [ofNat_mod_256]
  exact writesReg_of_next rfl

/-- Settles O2: each of the three is one register write. -/
theorem logicResults : Obligations.LogicResults := fun _ _ _ =>
  ⟨⟨wordOf_of_encode rfl, writesReg_of_next rfl⟩, ⟨wordOf_of_encode rfl, writesReg_of_next rfl⟩,
    wordOf_of_encode rfl, writesReg_of_next rfl⟩

/-- Settles O3: as in 7XNN the register's width reduces the sum, and the carry compares the exact one. -/
theorem addWithCarryResult : Obligations.AddWithCarryResult := by
  refine fun s x y => ⟨wordOf_of_encode rfl, ?_⟩
  rw [ofNat_mod_256, ← flagByte_decide]
  exact writesRegFlag_of_next rfl

/-- Settles O4: SUBN is SUB with the operands exchanged, and no borrow is the comparison of the exact values. -/
theorem subtractResults : Obligations.SubtractResults := by
  refine fun s x y => ⟨⟨wordOf_of_encode rfl, ?_⟩, wordOf_of_encode rfl, ?_⟩
  all_goals
    rw [← sub_eq_ofNat, ← flagByte_decide]
    exact writesRegFlag_of_next rfl

/-- Settles O5: the operand spelled out is `State.shiftOperand`, and each shift has its value and its flag. -/
theorem shiftResults : Obligations.ShiftResults := by
  refine fun s x y => ⟨⟨wordOf_of_encode rfl, ?_⟩, wordOf_of_encode rfl, ?_⟩
  · rw [← ushiftRight_one_eq_ofNat, ← shrFlag_eq]
    exact writesRegFlag_of_next rfl
  · rw [← shiftLeft_one_eq_ofNat, ← shlFlag_eq]
    exact writesRegFlag_of_next rfl

end Sys2Proof.Machine

/-! ## Control transfer (spec/42_control.md rules R120 to R129)

The two ways in which `pc` alone is written, then call and return by what the stack lets them do. -/

namespace Sys2Proof.Machine

/-! ### Only `pc` (rules R120, R123, R128) -/

theorem onlyPc_setPc (s : State) (p : Word) : OnlyPc s (s.setPc p) := ⟨rfl, fun _ => rfl⟩

/-- A skip goes where the rule says once its test decides the rule's condition. -/
theorem goesTo_of_skipIf {s : State} {o : Outcome} {c : Bool} {p : Prop} [Decidable p] (hc : c = true ↔ p)
    (h : o = .next (s.skipIf c)) : GoesTo s o (if p then s.pc + 4 else s.pc + 2) :=
  ⟨_, h, if_congr hc rfl rfl, onlyPc_setPc s _⟩

theorem setWidth_toNat (nnn : Addr12) : (nnn.setWidth 16 : Word).toNat = nnn.toNat :=
  BitVec.toNat_setWidth_of_le (by decide)

/-- The sum of a 12-bit address and a byte fits `pc`, so it is exact. -/
theorem setWidth_add_setWidth_toNat (nnn : Addr12) (b : Byte) :
    (nnn.setWidth 16 + b.setWidth 16 : Word).toNat = nnn.toNat + b.toNat := by
  bv_omega

/-! ### The register field of BNNN (rule R123) -/

/-- A byte below any number of bits; `append_toNat` is the case of two bytes. -/
theorem append_byte_toNat {k : Nat} (hi : BitVec k) (lo : Byte) : (hi ++ lo).toNat = hi.toNat * 256 + lo.toNat := by
  rw [BitVec.toNat_append, ← Nat.shiftLeft_add_eq_or_of_lt lo.isLt, Nat.shiftLeft_eq]

theorem offsetReg_append (x : Nibble) (nn : Byte) : offsetReg (x ++ nn) = x := BitVec.extractLsb'_append_eq_left

/-! ### Call and return (rules R121, R122) -/

section
variable {s t u : State} {nnn : Addr12} {a : Word}

theorem onlyStackPc_setPc (p : Word) (h : t = { s with stack := t.stack }) : OnlyStackPc s (t.setPc p) := by
  rw [h]
  exact ⟨rfl, fun _ => rfl⟩

theorem execCall_of_room (room : s.sp < 16) :
    execCall nnn s = .next ({ s with stack := (s.pc + 2) :: s.stack }.setPc (nnn.setWidth 16)) := by
  rw [execCall, push_eq, if_pos room]
  rfl

theorem execCall_of_full (full : 16 ≤ s.sp) : execCall nnn s = raise .stackOverflow s := by
  rw [execCall, push_eq, if_neg (by omega)]
  rfl

/-- A call that completes had room, and has pushed the address after it. -/
theorem execCall_next_stack (h : execCall nnn s = .next t) : t.stack = (s.pc + 2) :: s.stack := by
  by_cases room : s.sp < 16
  · rw [execCall_of_room room] at h
    cases h
    rfl
  · rw [execCall_of_full (by omega)] at h
    exact absurd h (raise_ne_next _ s t)

theorem execRet_of_pop (h : pop s = .ok (a, u)) : execRet s = .next (u.setPc a) := by
  rw [execRet, h]
  rfl

theorem execRet_of_nil (h : s.stack = []) : execRet s = raise .stackUnderflow s := by
  rw [execRet, pop_of_nil h]
  rfl

end

/-! ### The statements of the family -/

/-- Settles O6: the jump is one write of `pc`, and a write of the value held changes nothing. -/
theorem jumpGoesToItsTarget : Obligations.JumpGoesToItsTarget := by
  refine fun s nnn => ⟨wordOf_of_encode rfl, ⟨_, rfl, setWidth_toNat nnn, onlyPc_setPc s _⟩, fun hself => ?_⟩
  have hpc : nnn.setWidth 16 = s.pc := BitVec.eq_of_toNat_eq ((setWidth_toNat nnn).trans hself.symm)
  rw [exec, execJp, hpc]
  rfl

/-- Settles O7: 12 bits and a byte add up within 16 bits, and the quirk's register is the top nibble of NNN. -/
theorem jumpWithOffsetGoesToTheExactSum : Obligations.JumpWithOffsetGoesToTheExactSum := by
  intro s x nn
  have hword : (0xB#4 ++ (x ++ nn) : Word) = 0xB#4 ++ x ++ nn := BitVec.append_assoc.symm
  refine ⟨wordOf_of_encode hword, _, rfl, ?_, onlyPc_setPc s _⟩
  rw [State.setPc_pc, setWidth_add_setWidth_toNat, append_byte_toNat, State.jumpOffset, offsetReg_append]

/-- Settles O8: the push is a cons on the stack below 16 entries, and fails before any write at 16. -/
theorem callPushesTheReturnAddress : Obligations.CallPushesTheReturnAddress := by
  refine fun s nnn => ⟨wordOf_of_encode rfl, fun room => ?_, fun hfull => execCall_of_full hfull.ge⟩
  obtain ⟨hsp, htop, hbelow⟩ := stackEntry_of_cons (s := s) (t := { s with stack := (s.pc + 2) :: s.stack }) rfl
  exact ⟨_, execCall_of_room room, hsp, htop, hbelow, setWidth_toNat nnn, onlyStackPc_setPc _ rfl⟩

/-- Settles O9: the return goes to what the pop of the stack's accessor answers, which is nothing on an empty stack. -/
theorem returnPopsTheNewestEntry : Obligations.ReturnPopsTheNewestEntry := by
  refine fun s => ⟨wordOf_of_encode rfl, fun a hne htop => ?_,
    fun hempty => execRet_of_nil (List.length_eq_zero_iff.mp hempty)⟩
  obtain ⟨t, hpop, -, hsp, hbelow, hframe⟩ := hostApply_stackPop_component s a hne htop
  exact ⟨_, execRet_of_pop hpop, rfl, hsp, hbelow, onlyStackPc_setPc a hframe⟩

/-- Settles O10: a completed call leaves its return address on top of the old stack, and the return pops it. -/
theorem returnContinuesAfterTheCall : Obligations.ReturnContinuesAfterTheCall := by
  intro s t u nnn hcall hstack
  have hpushed : u.stack = (s.pc + 2) :: s.stack := hstack.trans (execCall_next_stack hcall)
  exact ⟨_, execRet_of_pop (pop_of_cons hpushed), rfl, rfl⟩

/-- Settles O11: the test of each skip decides its rule's comparison. -/
theorem registerSkips : Obligations.RegisterSkips := fun _ _ _ _ =>
  ⟨⟨wordOf_of_encode rfl, goesTo_of_skipIf beq_iff_eq rfl⟩, ⟨wordOf_of_encode rfl, goesTo_of_skipIf bne_iff_ne rfl⟩,
    ⟨wordOf_of_encode rfl, goesTo_of_skipIf beq_iff_eq rfl⟩, wordOf_of_encode rfl, goesTo_of_skipIf bne_iff_ne rfl⟩

end Sys2Proof.Machine

/-! ## The index register and memory (spec/43_index_memory.md rules R140 to R147)

The writes of I, then what a block of bytes or registers at I leaves and, by the effective address of its last byte,
whether it stops, and the index policy that both block transfers end with. -/

namespace Sys2Proof.Machine

/-! ### The index register (rules R140 to R142) -/

theorem writesIndex_of_next {s : State} {o : Outcome} {a : Word} {n : Nat} (h : o = .next (s.setI a).advance)
    (hn : a.toNat = n) : WritesIndex s o n :=
  ⟨_, h, hn, rfl, rfl, fun _ => rfl⟩

theorem add_setWidth_toNat (a : Word) (b : Byte) : (a + b.setWidth 16).toNat = (a.toNat + b.toNat) % 65536 := by
  bv_omega

theorem lowNibble_toNat (s : State) (x : Reg) : (s.lowNibble x).toNat = (s.getV x).toNat % 16 := by
  simp [State.lowNibble]

theorem glyphAddress_toNat (s : State) (d : Nibble) :
    (s.glyphAddress d).toNat = (s.fontBase.toNat + 5 * d.toNat) % 65536 := by
  unfold State.glyphAddress Config.fontGlyphBytes
  bv_omega

/-! ### The end of a block (rule R46) -/

section
variable {r : State × Option Condition} {k : State → State} {c : Condition} {f : Fault}

theorem afterBlock_of_none (h : r.2 = none) : afterBlock r k = .next (k r.1) :=
  afterBlock_next.mpr ⟨h, rfl⟩

theorem afterBlock_of_some (h : r.2 = some c) : afterBlock r k = raise c r.1 := by
  rw [afterBlock, h]

/-- The fault of a block is raised in the state that the block left. -/
theorem afterBlock_fault_latch (h : afterBlock r k = .fault f) : ∃ c : Condition, f = c.toFault (r.1.latch c) := by
  cases hstop : r.2 with
  | none => rw [afterBlock_of_none hstop] at h; cases h
  | some c => rw [afterBlock_of_some hstop] at h; exact ⟨c, (raise_eq_fault.mp h).symm⟩

end

/-! ### Bytes stored at I (rules R46, R147) -/

section
variable {s : State} {bs : List Byte} {n k a : Nat}

theorem effAddr_lt_of_le (hk : k ≤ n) (hin : s.effAddr n < 4096) : s.effAddr k < 4096 :=
  (Nat.add_le_add_left hk _).trans_lt hin

/-- A block stops when its last address does not exist. -/
theorem storeBytes_effAddr_stop (hlen : bs.length = n + 1) :
    (storeBytes s (s.effAddr 0) bs).2 = if s.effAddr n < 4096 then none else some .addressOutOfRange := by
  rw [storeBytes_stop]
  refine if_congr ?_ rfl rfl
  have hne : bs ≠ [] := List.ne_nil_of_length_eq_add_one hlen
  simp only [hne, State.effAddr, false_or]
  omega

theorem storeBytes_effAddr_byteAt (hk : k < bs.length) (hin : s.effAddr k < 4096) :
    (storeBytes s (s.effAddr 0) bs).1.byteAt (s.effAddr k) = bs.getD k 0 := by
  unfold State.effAddr at *
  rw [storeBytes_byteAt, if_pos (by omega), Nat.add_zero, Nat.add_sub_cancel_left]

theorem storeBytes_byteAt_outside (h : ¬ (inBlock (s.effAddr 0) bs.length a ∧ a < 4096)) :
    (storeBytes s (s.effAddr 0) bs).1.byteAt a = s.byteAt a := by
  rw [storeBytes_byteAt, if_neg (mt and_assoc.mpr h)]

end

@[simp] theorem storeBytes_i (s : State) (a : Nat) (bs : List Byte) : (storeBytes s a bs).1.i = s.i := by
  rw [storeBytes_only_mem]

@[simp] theorem storeBytes_quirks (s : State) (a : Nat) (bs : List Byte) :
    (storeBytes s a bs).1.quirks = s.quirks := by
  rw [storeBytes_only_mem]

theorem storeBytes_latch (s : State) (a : Nat) (bs : List Byte) (c : Condition) :
    (storeBytes s a bs).1.latch c
      = { s with mem := ((storeBytes s a bs).1.latch c).mem, fault := some c, proceed := false } := by
  rw [storeBytes_only_mem]
  rfl

/-- The digits are hundreds, tens and ones (rule R143). -/
theorem bcdDigits_getD (v : Byte) {k : Nat} (hk : k < 3) :
    (bcdDigits v).getD k 0
      = .ofNat 8 (if k = 0 then v.toNat / 100 else if k = 1 then v.toNat / 10 % 10 else v.toNat % 10) := by
  match k, hk with
  | 0, _ | 1, _ | 2, _ => rfl

/-! ### Registers loaded from I (rules R46, R147) -/

theorem loadRegs_effAddr_stop (s : State) (x : Reg) :
    (loadRegs s (s.effAddr 0) (regsUpTo x)).2
      = if s.effAddr x.toNat < 4096 then none else some .addressOutOfRange := by
  rw [loadRegs_stop]
  refine if_congr ?_ rfl rfl
  simp only [regsUpTo_ne_nil, regsUpTo_length, State.effAddr, false_or]
  omega

@[simp] theorem loadRegs_i (s : State) (a : Nat) (rs : List Reg) : (loadRegs s a rs).1.i = s.i := by
  rw [loadRegs_only_v]

@[simp] theorem loadRegs_quirks (s : State) (a : Nat) (rs : List Reg) : (loadRegs s a rs).1.quirks = s.quirks := by
  rw [loadRegs_only_v]

theorem loadRegs_latch (s : State) (a : Nat) (rs : List Reg) (c : Condition) :
    (loadRegs s a rs).1.latch c
      = { s with v := ((loadRegs s a rs).1.latch c).v, fault := some c, proceed := false } := by
  rw [loadRegs_only_v]
  rfl

/-! ### The index policy (rule R146) -/

@[simp] theorem byteAt_indexAfterBlock (s : State) (x : Reg) (a : Nat) :
    (s.indexAfterBlock x).byteAt a = s.byteAt a := by
  rw [indexAfterBlock_eq]
  rfl

@[simp] theorem getV_indexAfterBlock (s : State) (x q : Reg) : (s.indexAfterBlock x).getV q = s.getV q := by
  rw [indexAfterBlock_eq]
  rfl

section
variable {s t u : State} {x : Reg}

theorem indexPolicy_iff :
    IndexPolicy s t x ↔
      (s.quirks.memoryLeaveIUnchanged = true → t.i = s.i) ∧
      (s.quirks.memoryLeaveIUnchanged = false → s.quirks.memoryIncrementByX = true →
        t.i.toNat = (s.i.toNat + x.toNat) % 65536) ∧
      (s.quirks.memoryLeaveIUnchanged = false → s.quirks.memoryIncrementByX = false →
        t.i.toNat = (s.i.toNat + x.toNat + 1) % 65536) := by
  unfold IndexPolicy
  cases s.quirks.memoryLeaveIUnchanged
  · cases s.quirks.memoryIncrementByX <;> simp
  · simp

/-- A block leaves I and the Quirks, so the policy starts from what the instruction found. -/
theorem indexPolicy_of_afterBlock (hi : u.i = s.i) (hquirks : u.quirks = s.quirks) :
    IndexPolicy s (u.indexAfterBlock x).advance x := by
  unfold IndexPolicy
  rw [State.advance_i, indexAfterBlock_eq, hi, hquirks]
  split
  · rfl
  · split <;> bv_omega

end

/-! ### The block instructions, by the effective address of the last byte -/

section
variable {s : State} {x : Reg}

theorem execLdB_of_lt (hin : s.effAddr 2 < 4096) :
    execLdB x s = .next (storeBytes s (s.effAddr 0) (bcdDigits (s.getV x))).1.advance :=
  afterBlock_of_none ((storeBytes_effAddr_stop rfl).trans (if_pos hin))

theorem execLdB_of_ge (hout : 4096 ≤ s.effAddr 2) :
    execLdB x s = raise .addressOutOfRange (storeBytes s (s.effAddr 0) (bcdDigits (s.getV x))).1 :=
  afterBlock_of_some ((storeBytes_effAddr_stop rfl).trans (if_neg hout.not_gt))

theorem execStRegs_of_lt (hin : s.effAddr x.toNat < 4096) :
    execStRegs x s = .next ((storeBytes s (s.effAddr 0) (s.blockBytes x)).1.indexAfterBlock x).advance :=
  afterBlock_of_none ((storeBytes_effAddr_stop (blockBytes_length s x)).trans (if_pos hin))

theorem execStRegs_of_ge (hout : 4096 ≤ s.effAddr x.toNat) :
    execStRegs x s = raise .addressOutOfRange (storeBytes s (s.effAddr 0) (s.blockBytes x)).1 :=
  afterBlock_of_some ((storeBytes_effAddr_stop (blockBytes_length s x)).trans (if_neg hout.not_gt))

theorem execLdRegs_of_lt (hin : s.effAddr x.toNat < 4096) :
    execLdRegs x s = .next ((loadRegs s (s.effAddr 0) (regsUpTo x)).1.indexAfterBlock x).advance :=
  afterBlock_of_none ((loadRegs_effAddr_stop s x).trans (if_pos hin))

theorem execLdRegs_of_ge (hout : 4096 ≤ s.effAddr x.toNat) :
    execLdRegs x s = raise .addressOutOfRange (loadRegs s (s.effAddr 0) (regsUpTo x)).1 :=
  afterBlock_of_some ((loadRegs_effAddr_stop s x).trans (if_neg hout.not_gt))

end

/-! ### The statements of the family -/

/-- Settles O12: each of the three is one write of I, whose width reduces the sum. -/
theorem indexRegisterResults : Obligations.IndexRegisterResults := by
  refine fun s x nnn => ⟨⟨wordOf_of_encode rfl, writesIndex_of_next rfl (setWidth_toNat nnn)⟩,
    ⟨wordOf_of_encode rfl, writesIndex_of_next rfl (add_setWidth_toNat s.i _)⟩, wordOf_of_encode rfl, ?_⟩
  rw [← lowNibble_toNat, ← glyphAddress_toNat]
  exact writesIndex_of_next rfl rfl

/-- Settles O13: three bytes are stored at I, and I is not written. -/
theorem decimalDigitsAreStored : Obligations.DecimalDigitsAreStored := by
  intro s x v digit
  have hdigits (k : Nat) (hk : k < 3) (hin : s.effAddr k < 4096) :
      (storeBytes s (s.effAddr 0) (bcdDigits (s.getV x))).1.byteAt (s.effAddr k) = digit k :=
    (storeBytes_effAddr_byteAt hk hin).trans (bcdDigits_getD _ hk)
  have hothers (a : Nat) (ha : ¬ (inBlock (s.effAddr 0) 3 a ∧ a < 4096)) :
      (storeBytes s (s.effAddr 0) (bcdDigits (s.getV x))).1.byteAt a = s.byteAt a :=
    storeBytes_byteAt_outside ha
  refine ⟨wordOf_of_encode rfl, fun hin => ⟨_, execLdB_of_lt hin,
      fun k hk => hdigits k hk (effAddr_lt_of_le (Nat.le_of_lt_succ hk) hin),
      fun a ha => hothers a (mt And.left ha), storeBytes_i .., ?_, ?_⟩,
    fun hout => ⟨_, execLdB_of_ge hout, hdigits, hothers, storeBytes_latch ..⟩⟩
  · rw [State.advance_pc, storeBytes_pc]
  · rw [storeBytes_only_mem]
    rfl

/-- Settles O14: `X + 1` bytes are stored at I, and then the index policy is applied. -/
theorem blockStoreResult : Obligations.BlockStoreResult := by
  intro s x
  have hbytes (k : Reg) (hk : k.toNat ≤ x.toNat) (hin : s.effAddr k.toNat < 4096) :
      (storeBytes s (s.effAddr 0) (s.blockBytes x)).1.byteAt (s.effAddr k.toNat) = s.getV k := by
    rw [storeBytes_effAddr_byteAt (by simpa using Nat.lt_succ_of_le hk) hin, blockBytes_getD s x _ hk,
      BitVec.ofNat_toNat, BitVec.setWidth_eq]
  have hothers (a : Nat) (ha : ¬ (inBlock (s.effAddr 0) (x.toNat + 1) a ∧ a < 4096)) :
      (storeBytes s (s.effAddr 0) (s.blockBytes x)).1.byteAt a = s.byteAt a :=
    storeBytes_byteAt_outside (by rwa [blockBytes_length])
  refine ⟨wordOf_of_encode rfl, fun hin => ⟨_, execStRegs_of_lt hin, fun k hk => ?_, fun a ha => ?_,
      indexPolicy_of_afterBlock (storeBytes_i ..) (storeBytes_quirks ..), ?_, ?_⟩,
    fun hout => ⟨_, execStRegs_of_ge hout, hbytes, hothers, storeBytes_latch ..⟩⟩
  · rw [State.byteAt_advance, byteAt_indexAfterBlock]
    exact hbytes k hk (effAddr_lt_of_le hk hin)
  · rw [State.byteAt_advance, byteAt_indexAfterBlock]
    exact hothers a (mt And.left ha)
  · rw [State.advance_pc, indexAfterBlock_pc, storeBytes_pc]
  · rw [storeBytes_only_mem, indexAfterBlock_eq]
    rfl

/-- Settles O15: `X + 1` registers are loaded from I, and then the index policy is applied. -/
theorem blockLoadResult : Obligations.BlockLoadResult := by
  refine fun s x => ⟨wordOf_of_encode rfl, fun hin => ⟨_, execLdRegs_of_lt hin, fun q => ?_,
      indexPolicy_of_afterBlock (loadRegs_i ..) (loadRegs_quirks ..), ?_, ?_, fun a => ?_⟩,
    fun hout => ⟨_, execLdRegs_of_ge hout, loadRegs_getV s (s.effAddr 0) x, loadRegs_latch ..⟩⟩
  · have hall (hq : q.toNat ≤ x.toNat) : s.effAddr q.toNat < 4096 := effAddr_lt_of_le hq hin
    rw [State.getV_advance, getV_indexAfterBlock, loadRegs_getV]
    exact if_congr (and_iff_left_of_imp hall) rfl rfl
  · rw [State.advance_pc, indexAfterBlock_pc, loadRegs_pc]
  · rw [loadRegs_only_v, indexAfterBlock_eq]
    rfl
  · rw [State.byteAt_advance, byteAt_indexAfterBlock, loadRegs_only_v]
    rfl

/-- Settles O16: both transfers are a block access that leaves I, followed by the policy when it completes. -/
theorem blockTransfersApplyTheIndexPolicy : Obligations.BlockTransfersApplyTheIndexPolicy := by
  intro s x i hi
  obtain ⟨r, hexec, hindex, hquirks⟩ : ∃ r : State × Option Condition,
      exec i s = afterBlock r (fun u => (u.indexAfterBlock x).advance) ∧ r.1.i = s.i ∧ r.1.quirks = s.quirks := by
    rcases hi with rfl | rfl
    · exact ⟨_, rfl, storeBytes_i .., storeBytes_quirks ..⟩
    · exact ⟨_, rfl, loadRegs_i .., loadRegs_quirks ..⟩
  rw [hexec]
  refine ⟨fun t ht => ?_, fun f hf => ?_⟩
  · obtain ⟨-, rfl⟩ := afterBlock_next.mp ht
    exact indexPolicy_iff.mp (indexPolicy_of_afterBlock hindex hquirks)
  · obtain ⟨c, rfl⟩ := afterBlock_fault_latch hf
    rw [toFault_halted, State.latch_i, hindex]

end Sys2Proof.Machine

/-! ## Timers (spec/44_timers.md rules R160 to R162)

The sound output as a condition on ST, then the two shapes in which a timer write completes. -/

namespace Sys2Proof.Machine

theorem soundActive_iff (s : State) : s.soundActive = true ↔ s.st ≠ 0 := bne_iff_ne

section
variable {s : State} {o : Outcome} {b : Byte}

theorem writesDt_of_next (h : o = .next (s.setDt b).advance) :
    ∃ t, o = .next t ∧ t.dt = b ∧ t.pc = s.pc + 2 ∧ t = { s with dt := t.dt, pc := t.pc } ∧
      ∀ a, t.byteAt a = s.byteAt a :=
  ⟨_, h, rfl, rfl, rfl, fun _ => rfl⟩

/-- The sound output follows the value written at once (rule R162). -/
theorem writesSt_of_next (h : o = .next (s.setSt b).advance) :
    ∃ t, o = .next t ∧ t.st = b ∧ t.pc = s.pc + 2 ∧ (t.soundActive = true ↔ b ≠ 0) ∧
      t = { s with st := t.st, pc := t.pc } ∧ ∀ a, t.byteAt a = s.byteAt a :=
  ⟨_, h, rfl, rfl, soundActive_iff (s.setSt b).advance, rfl, fun _ => rfl⟩

end

/-! ### The statement of the family -/

/-- Settles O18: FX07 is one register write, FX15 and FX18 are one timer write each. -/
theorem timerInstructionResults : Obligations.TimerInstructionResults := fun _ _ =>
  ⟨⟨wordOf_of_encode rfl, writesReg_of_next rfl⟩, ⟨wordOf_of_encode rfl, writesDt_of_next rfl⟩,
    wordOf_of_encode rfl, writesSt_of_next rfl⟩

end Sys2Proof.Machine

/-! ## The reference devices (spec/45_devices.md rules R177, R178)

`Draws` says what a step of drawing does to the screen and to the collision bit. Disjoint drawings compose, so a pixel, a
row of pixels and a list of rows each draw what they light. -/

namespace Sys2Proof.Machine

/-! ### The keypad (rule R177) -/

/-- The bit of key `k` in a set of held keys. -/
theorem getLsbD_keyBit (k j : Nibble) : (1#16 <<< k.toNat).getLsbD j.toNat = decide (j = k) := by
  rw [← BitVec.twoPow_eq, BitVec.getLsbD_twoPow, decide_eq_true k.isLt, Bool.true_and]
  exact decide_eq_decide.mpr (BitVec.toNat_inj.trans eq_comm)

/-- The event kept is the released key or the one that waited, and no number above either. -/
theorem keepLowest_spec (k : Nibble) (pending : Option Nibble) :
    (keepLowest k pending = k ∨ pending = some (keepLowest k pending)) ∧
    (keepLowest k pending).toNat ≤ k.toNat ∧ ∀ p, pending = some p → (keepLowest k pending).toNat ≤ p.toNat := by
  cases pending with
  | none => exact ⟨.inl rfl, le_rfl, nofun⟩
  | some p =>
    simp only [keepLowest, Option.some.injEq, forall_eq']
    split
    · next hlt => exact ⟨.inr rfl, hlt.le, le_rfl⟩
    · next hge => exact ⟨.inl rfl, le_rfl, Nat.le_of_not_lt hge⟩

theorem KeypadDevice.move_release_held {held : BitVec 16} {k : Nibble} (pending : Option Nibble)
    (hheld : held.getLsbD k.toNat = true) :
    (KeypadDevice.reference held pending).move (.release k)
      = .reference (held &&& ~~~(1#16 <<< k.toNat)) (some (keepLowest k pending)) :=
  if_pos hheld

/-- Settles O29: a press sets the bit of the key, a release clears it and keeps the lowest event. -/
theorem referenceKeypadMoves : Obligations.ReferenceKeypadMoves := by
  refine fun held pending k j => ⟨⟨_, rfl, ?_⟩,
    fun hheld => ⟨_, _, KeypadDevice.move_release_held pending hheld, ?_, keepLowest_spec k pending⟩, rfl⟩
  · rw [BitVec.getLsbD_or, getLsbD_keyBit, Bool.or_comm]
  · rw [BitVec.getLsbD_and, BitVec.getLsbD_not, getLsbD_keyBit, decide_eq_true j.isLt, Bool.true_and, Bool.and_comm]

/-! ### What a step of drawing does (rule R178) -/

/-- `f` toggles the pixels of the screen that `lit` lights, and sets the collision when one of them was lit before. -/
structure Draws (lit : Nat → Nat → Bool) (f : FrameBuffer × Bool → FrameBuffer × Bool) : Prop where
  pixel : ∀ acc r c, r < 32 → c < 64 → (f acc).1.pixel r c = (acc.1.pixel r c ^^ lit r c)
  collision : ∀ acc, (f acc).2 = true ↔
    acc.2 = true ∨ ∃ r c, r < 32 ∧ c < 64 ∧ lit r c = true ∧ acc.1.pixel r c = true

section
variable {lit lit₁ lit₂ : Nat → Nat → Bool} {f g : FrameBuffer × Bool → FrameBuffer × Bool}

theorem Draws.of_unlit (unlit : ∀ r c, ¬ lit r c = true) : Draws lit id where
  pixel acc r c _ _ := by rw [Bool.eq_false_iff.mpr (unlit r c), Bool.xor_false, id]
  collision acc := by simp [unlit]

/-- Drawing two sprites with no lit pixel in common draws both: the second sees the first's pixels as they were. -/
theorem Draws.comp (hf : Draws lit₁ f) (hg : Draws lit₂ g) (disjoint : ∀ r c, ¬ (lit₁ r c = true ∧ lit₂ r c = true))
    (hlit : ∀ r c, lit r c = (lit₁ r c || lit₂ r c)) : Draws lit (g ∘ f) where
  pixel acc r c hr hc := by
    rw [Function.comp_apply, hg.pixel _ r c hr hc, hf.pixel _ r c hr hc, hlit, Bool.xor_assoc]
    cases h : lit₁ r c with
    | false => rw [Bool.false_xor, Bool.false_or]
    | true =>
      have h₂ : lit₂ r c = false := Bool.eq_false_iff.mpr fun h₂ => disjoint r c ⟨h, h₂⟩
      rw [h₂, Bool.xor_false, Bool.or_false]
  collision acc := by
    have hsecond (r c : Nat) (hr : r < 32) (hc : c < 64) (h₂ : lit₂ r c = true) :
        (f acc).1.pixel r c = acc.1.pixel r c := by
      have h₁ : lit₁ r c = false := Bool.eq_false_iff.mpr fun h₁ => disjoint r c ⟨h₁, h₂⟩
      rw [hf.pixel acc r c hr hc, h₁, Bool.xor_false]
    rw [Function.comp_apply, hg.collision, hf.collision, or_assoc]
    refine or_congr_right ⟨?_, ?_⟩
    · rintro (⟨r, c, hr, hc, h, hp⟩ | ⟨r, c, hr, hc, h, hp⟩)
      · exact ⟨r, c, hr, hc, by rw [hlit, h, Bool.true_or], hp⟩
      · exact ⟨r, c, hr, hc, by rw [hlit, h, Bool.or_true], hsecond r c hr hc h ▸ hp⟩
    · rintro ⟨r, c, hr, hc, h, hp⟩
      rw [hlit, Bool.or_eq_true] at h
      rcases h with h | h
      · exact .inl ⟨r, c, hr, hc, h, hp⟩
      · exact .inr ⟨r, c, hr, hc, h, (hsecond r c hr hc h).trans hp⟩

end

/-! ### A pixel, a row, the rows -/

/-- The pixel that one sprite bit lights. -/
def pixelLit (py px : Nat) (b : Bool) (r c : Nat) : Bool := decide (r = py ∧ c = px ∧ b = true)

/-- The pixels that the first `n` columns of a sprite row light. -/
def rowLit (py x0 n : Nat) (row : Byte) (r c : Nat) : Bool :=
  decide (r = py ∧ x0 ≤ c ∧ c < x0 + n ∧ row.getLsbD (7 - (c - x0)) = true)

/-- The pixels that sprite rows light, on the screen or off it. -/
def spriteLit (py x0 : Nat) (rows : List Byte) (r c : Nat) : Bool :=
  decide (py ≤ r ∧ x0 ≤ c ∧ c < x0 + 8) && (rows.getD (r - py) 0).getLsbD (7 - (c - x0))

theorem pixelLit_iff {py px r c : Nat} {b : Bool} : pixelLit py px b r c = true ↔ r = py ∧ c = px ∧ b = true :=
  decide_eq_true_iff

theorem rowLit_iff {py x0 n r c : Nat} {row : Byte} :
    rowLit py x0 n row r c = true ↔ r = py ∧ x0 ≤ c ∧ c < x0 + n ∧ row.getLsbD (7 - (c - x0)) = true :=
  decide_eq_true_iff

theorem spriteLit_iff {py x0 r c : Nat} {rows : List Byte} :
    spriteLit py x0 rows r c = true ↔
      (py ≤ r ∧ x0 ≤ c ∧ c < x0 + 8) ∧ (rows.getD (r - py) 0).getLsbD (7 - (c - x0)) = true := by
  rw [spriteLit, Bool.and_eq_true, decide_eq_true_iff]

/-- A lit bit on the screen toggles its pixel; one off the screen lights no pixel of it, nor does an unlit bit. -/
theorem draws_drawPixel (py px : Nat) (b : Bool) : Draws (pixelLit py px b) (drawPixel py px b) := by
  by_cases h : py < 32 ∧ px < 64 ∧ b = true
  · have hdraw acc : drawPixel py px b acc = (acc.1.toggle py px, acc.2 || acc.1.pixel py px) := if_pos h
    obtain ⟨hpy, hpx, rfl⟩ := h
    constructor
    · intro acc r c _ _
      rw [hdraw, FrameBuffer.pixel_toggle _ hpy hpx, pixelLit]
      simp
    · intro acc
      simp [hdraw, pixelLit_iff, hpy, hpx]
  · have hdraw acc : drawPixel py px b acc = acc := if_neg h
    have hunlit (r c : Nat) (hr : r < 32) (hc : c < 64) : ¬ pixelLit py px b r c = true := by
      rw [pixelLit_iff]
      rintro ⟨rfl, rfl, hb⟩
      exact h ⟨hr, hc, hb⟩
    constructor
    · intro acc r c hr hc
      rw [hdraw, Bool.eq_false_iff.mpr (hunlit r c hr hc), Bool.xor_false]
    · intro acc
      rw [hdraw]
      exact (or_iff_left fun ⟨r, c, hr, hc, hlit, _⟩ => hunlit r c hr hc hlit).symm

theorem draws_columns (py x0 n : Nat) (row : Byte) :
    Draws (rowLit py x0 n row)
      fun acc => (List.range n).foldl (fun a c => drawPixel py (x0 + c) (row.getLsbD (7 - c)) a) acc := by
  induction n with
  | zero =>
    refine .of_unlit fun r c => ?_
    rw [rowLit_iff]
    omega
  | succ n ih =>
    simp only [List.range_succ, List.foldl_append]
    refine ih.comp (draws_drawPixel py (x0 + n) (row.getLsbD (7 - n))) (fun r c => ?_) fun r c => ?_
    · rw [rowLit_iff, pixelLit_iff]
      omega
    · rw [Bool.eq_iff_iff, Bool.or_eq_true, rowLit_iff, rowLit_iff, pixelLit_iff]
      by_cases hc : c = x0 + n
      · subst hc
        simp
      · have hlt : c < x0 + (n + 1) ↔ c < x0 + n := by omega
        simp [hc, hlt]

theorem draws_drawRow (py x0 : Nat) (row : Byte) : Draws (rowLit py x0 8 row) (drawRow py x0 row) :=
  draws_columns py x0 8 row

/-- The first row lights screen row `py`, the rows after it light the screen rows below. -/
theorem spriteLit_cons (py x0 : Nat) (row : Byte) (rows : List Byte) (r c : Nat) :
    spriteLit py x0 (row :: rows) r c = (rowLit py x0 8 row r c || spriteLit (py + 1) x0 rows r c) := by
  rw [Bool.eq_iff_iff, Bool.or_eq_true, rowLit_iff, spriteLit_iff, spriteLit_iff]
  by_cases hr : r = py
  · subst hr
    simp [and_assoc]
  · by_cases hlt : py < r
    · rw [show r - py = r - (py + 1) + 1 by omega, List.getD_cons_succ]
      simp [hr, hlt, hlt.le]
    · omega

theorem draws_drawRows (py x0 : Nat) (rows : List Byte) : Draws (spriteLit py x0 rows) (drawRows py x0 rows) := by
  induction rows generalizing py with
  | nil => exact .of_unlit fun r c => by simp [spriteLit]
  | cons row rows ih =>
    refine (draws_drawRow py x0 row).comp (ih (py + 1)) (fun r c => ?_) (spriteLit_cons py x0 row rows)
    rw [rowLit_iff, spriteLit_iff]
    omega

/-! ### The statements about the display -/

/-- Settles O27: the draw is `drawRows` from the start position, on a collision bit of 0. -/
theorem referenceDrawTogglesTheSprite : Obligations.ReferenceDrawTogglesTheSprite := by
  intro fb x y rows
  have h := draws_drawRows (y.toNat % 32) (x.toNat % 64) rows
  exact ⟨h.pixel (fb, false), (h.collision (fb, false)).trans (or_iff_right Bool.false_ne_true)⟩

/-- Settles O28: each pixel of the screen is toggled by the same bit twice, and there are no others. -/
theorem referenceDrawTwiceRestores : Obligations.ReferenceDrawTwiceRestores := by
  refine fun fb x y rows => FrameBuffer.ext_pixel fun r c => ?_
  by_cases h : r < 32 ∧ c < 64
  · obtain ⟨hr, hc⟩ := h
    obtain ⟨hfirst, -⟩ := referenceDrawTogglesTheSprite fb x y rows
    obtain ⟨hsecond, -⟩ := referenceDrawTogglesTheSprite (fb.draw x y rows).1 x y rows
    rw [hsecond r c hr hc, hfirst r c hr hc, Bool.xor_assoc, Bool.xor_self, Bool.xor_false]
  · have houtside : 32 ≤ r ∨ 64 ≤ c := by omega
    rw [FrameBuffer.pixel_outside _ houtside, FrameBuffer.pixel_outside _ houtside]

end Sys2Proof.Machine

/-! ## The ports of a cycle (spec/45_devices.md rule R170)

What answers each port at the start of a cycle, then an instruction on two samples that agree on the ports it uses. -/

namespace Sys2Proof.Machine

/-! ### The start of a cycle -/

theorem nextSample_of_schedule {s : State} {h : HostSample} {rest : List HostSample} (hsupply : s.schedule = h :: rest) :
    s.nextSample = h := by
  rw [State.nextSample, hsupply]

/-- A refresh leaves a black-box display one. -/
theorem beginCycle_display_external {s : State} (hd : s.display = .external) : s.beginCycle.display = .external := by
  rw [State.beginCycle_display, hd, DisplayDevice.refresh_external, ite_self]

/-- A refresh raises the ready level of a reference display. -/
theorem beginCycle_display_reference {s : State} {fb : FrameBuffer} {ready : Bool} (hd : s.display = .reference fb ready) :
    s.beginCycle.display = .reference fb (ready || s.nextSample.refresh) := by
  rw [State.beginCycle_display, hd, DisplayDevice.refresh_reference]
  cases s.nextSample.refresh with
  | false => rw [Bool.or_false]; rfl
  | true => rw [Bool.or_true]; rfl

theorem beginCycle_ports_dispReady (s : State) :
    s.beginCycle.ports.dispReady = s.beginCycle.display.readyLevel s.nextSample.ports.dispReady := rfl

theorem beginCycle_ports_keys (s : State) :
    s.beginCycle.ports.keys = s.beginCycle.keypad.keys s.nextSample.ports.keys := rfl

theorem beginCycle_ports_keyEvent (s : State) :
    s.beginCycle.ports.keyEvent = s.beginCycle.keypad.event s.nextSample.ports.keyEvent := rfl

/-- Settles O58: each port is answered by the device that the start of the cycle leaves. -/
theorem connectedDevicesAnswerThePorts : Obligations.ConnectedDevicesAnswerThePorts := by
  intro s h rest hsupply b
  obtain rfl := nextSample_of_schedule hsupply
  refine ⟨rfl, rfl, fun hd => ?_, fun fb ready hd => ?_, fun hk => ?_, fun held pending hk => ?_⟩
  · have hb : b.display = .external := beginCycle_display_external hd
    exact ⟨hb, by rw [beginCycle_ports_dispReady, hb, DisplayDevice.readyLevel_external]⟩
  · have hb : b.display = .reference fb (ready || s.nextSample.refresh) := beginCycle_display_reference hd
    exact ⟨hb, by rw [beginCycle_ports_dispReady, hb, DisplayDevice.readyLevel_reference]⟩
  · have hb : b.keypad = .external := by rw [State.beginCycle_keypad, hk, KeypadDevice.moves_external]
    exact ⟨hb, by rw [beginCycle_ports_keys, hb, KeypadDevice.keys_external],
      by rw [beginCycle_ports_keyEvent, hb, KeypadDevice.event_external]⟩
  · obtain ⟨held', pending', hmoves⟩ := KeypadDevice.moves_reference s.nextSample.keyMoves held pending
    have hb : b.keypad = .reference held' pending' := by rw [State.beginCycle_keypad, hk, hmoves]
    exact ⟨held', pending', hmoves, hb, by rw [beginCycle_ports_keys, hb, KeypadDevice.keys_reference],
      by rw [beginCycle_ports_keyEvent, hb, KeypadDevice.event_reference]⟩

end Sys2Proof.Machine

/-! ## The device instructions (spec/45_devices.md rules R171 to R176)

FX0A and DXYN by their cases, then what a completed draw leaves. -/

namespace Sys2Proof.Machine

/-! ### Keys (rules R173 to R175) -/

theorem keyDown_eq (s : State) (x : Reg) : s.keyDown x = s.ports.keys.getLsbD ((s.getV x).toNat % 16) := by
  rw [State.keyDown, lowNibble_toNat]

theorem execLdVxK_of_none {s : State} {x : Reg} (h : s.ports.keyEvent = none) : execLdVxK x s = .next s.waitCycle := by
  rw [execLdVxK, h]

theorem execLdVxK_of_some {s : State} {x : Reg} {k : Nibble} (h : s.ports.keyEvent = some k) :
    execLdVxK x s = .next (s.consumeKeyEvent.setV x (k.setWidth 8)).advance := by
  rw [execLdVxK, h]

/-! ### The draw (rule R172) -/

/-- The bytes of a sprite of `n` rows at I. -/
def State.spriteRows (s : State) (n : Nibble) : List Byte := (List.range n.toNat).map fun k => s.byteAt (s.effAddr k)

section
variable {s : State} {x y : Reg} {n : Nibble}

theorem readBytes_effAddr (s : State) (n : Nibble) :
    readBytes s (s.effAddr 0) n.toNat
      = if n = 0 ∨ s.effAddr n.toNat ≤ 4096 then .ok (s.spriteRows n) else .error .addressOutOfRange :=
  (readBytes_eq s (s.effAddr 0) n.toNat).trans (if_congr (or_congr_left (BitVec.toNat_inj (x := n) (y := 0))) rfl rfl)

theorem execDrw_of_held (held : s.drawHeld = true) : execDrw x y n s = .next s.waitCycle := if_pos held

theorem execDrw_of_not_held (ready : ¬ s.drawHeld = true) :
    execDrw x y n s
      = orRaise s (readBytes s (s.effAddr 0) n.toNat) fun rows => .next (s.drawSprite x y rows) := if_neg ready

theorem execDrw_of_inside (ready : ¬ s.drawHeld = true) (hin : n = 0 ∨ s.effAddr n.toNat ≤ 4096) :
    execDrw x y n s = .next (s.drawSprite x y (s.spriteRows n)) := by
  rw [execDrw_of_not_held ready, readBytes_effAddr, if_pos hin, orRaise]

theorem execDrw_of_outside (ready : ¬ s.drawHeld = true) (hn : n ≠ 0) (hout : 4096 < s.effAddr n.toNat) :
    execDrw x y n s = raise .addressOutOfRange s := by
  rw [execDrw_of_not_held ready, readBytes_effAddr, if_neg (not_or.mpr ⟨hn, hout.not_ge⟩), orRaise]

theorem drawSprite_getV (s : State) (x y q : Reg) (rows : List Byte) :
    (s.drawSprite x y rows).getV q
      = if q = 0xF then (if s.collisionAnswer (s.getV x) (s.getV y) rows then 1 else 0) else s.getV q :=
  State.getV_setV (s.displayDraw (s.getV x) (s.getV y) rows) flagReg q _

/-- The answer to a draw and the display that it leaves are the two parts of what the device does. -/
theorem drawSprite_answer_display {d : DisplayDevice} (hd : s.display = d) (rows : List Byte) :
    s.collisionAnswer (s.getV x) (s.getV y) rows = (d.draw (s.getV x) (s.getV y) rows s.ports.collision).2 ∧
    (s.drawSprite x y rows).display = (d.draw (s.getV x) (s.getV y) rows s.ports.collision).1 := by
  subst hd
  exact ⟨rfl, rfl⟩

end

/-! ### The statements of the family -/

/-- Settles O21: the clear has one outcome, and the device takes the command. -/
theorem clearScreenSendsOneCommand : Obligations.ClearScreenSendsOneCommand := fun _ =>
  ⟨wordOf_of_encode rfl, _, rfl, rfl, rfl, rfl, fun hd => congrArg DisplayDevice.clear hd,
    fun _ _ hd => ⟨.blank, congrArg DisplayDevice.clear hd, FrameBuffer.pixel_blank⟩, fun _ => rfl⟩

/-- Settles O22: the draw by its three cases, held, sprite inside Memory and sprite outside. -/
theorem drawSendsTheSprite : Obligations.DrawSendsTheSprite := by
  intro s x y n held rows
  have hheld : s.drawHeld = true ↔ held := drawHeld_iff
  refine ⟨wordOf_of_encode rfl, fun h => execDrw_of_held (hheld.mpr h),
    fun h hin => ⟨_, execDrw_of_inside (mt hheld.mp h) hin, rfl, fun q => drawSprite_getV s x y q rows,
      fun hd => drawSprite_answer_display hd rows, fun _ _ hd => drawSprite_answer_display hd rows, rfl, rfl,
      fun _ => rfl⟩,
    fun h hn hout => execDrw_of_outside (mt hheld.mp h) hn hout⟩

/-- Settles O23: both skips test the key of the low nibble. -/
theorem keySkips : Obligations.KeySkips := by
  refine fun s x => ⟨⟨wordOf_of_encode rfl, goesTo_of_skipIf ?_ rfl⟩, wordOf_of_encode rfl, goesTo_of_skipIf ?_ rfl⟩
  · rw [keyDown_eq]
  · rw [keyDown_eq, Bool.not_eq_true']

/-- Settles O24: the two cases of the event. -/
theorem waitForKey : Obligations.WaitForKey := by
  refine fun s x => ⟨wordOf_of_encode rfl, execLdVxK_of_none,
    fun k hk => ⟨_, execLdVxK_of_some hk, fun q => ?_, rfl, rfl, fun _ => rfl⟩⟩
  rw [State.getV_advance, State.getV_setV, apply_ite BitVec.toNat, BitVec.toNat_setWidth_of_le (by decide),
    State.getV_consumeKeyEvent]

/-- Settles O25: one register write. -/
theorem randomByteIsMasked : Obligations.RandomByteIsMasked := fun _ _ _ =>
  ⟨wordOf_of_encode rfl, writesReg_of_next rfl⟩

end Sys2Proof.Machine

/-! ## Unused ports (spec/45_devices.md rule R170)

An instruction on another sample does the same and records that sample, when the two agree on the ports it uses. -/

namespace Sys2Proof.Machine

/-- The state with another sample recorded. -/
def State.withPorts (p : Ports) (s : State) : State := { s with ports := p }

section
variable {s : State} {p : Ports} {x y : Reg}

/-! ### The shared operations -/

theorem raise_withPorts (p : Ports) (s : State) (c : Condition) :
    raise c (s.withPorts p) = mapOutcome (State.withPorts p) (raise c s) := by
  cases c <;> rfl

theorem readBytes_withPorts (p : Ports) (s : State) (a n : Nat) : readBytes (s.withPorts p) a n = readBytes s a n := by
  rw [readBytes_eq, readBytes_eq]
  rfl

theorem storeBytes_withPorts (p : Ports) (s : State) (a : Nat) (bs : List Byte) :
    storeBytes (s.withPorts p) a bs = ((storeBytes s a bs).1.withPorts p, (storeBytes s a bs).2) := by
  induction bs generalizing s a with
  | nil => rfl
  | cons b bs ih =>
    simp only [storeBytes, memWrite_eq]
    by_cases h : a < 4096
    · simp only [if_pos h]
      exact ih { s with mem := s.mem.set a b } (a + 1)
    · simp only [if_neg h]

theorem loadRegs_withPorts (p : Ports) (s : State) (a : Nat) (rs : List Reg) :
    loadRegs (s.withPorts p) a rs = ((loadRegs s a rs).1.withPorts p, (loadRegs s a rs).2) := by
  induction rs generalizing s a with
  | nil => rfl
  | cons r rs ih =>
    simp only [loadRegs, memRead_eq]
    by_cases h : a < 4096
    · simp only [if_pos h]
      exact ih (s.setV r (s.byteAt a)) (a + 1)
    · simp only [if_neg h]

theorem afterBlock_withPorts (r : State × Option Condition) {k : State → State}
    (hk : ∀ u, k (u.withPorts p) = (k u).withPorts p) :
    afterBlock (r.1.withPorts p, r.2) k = mapOutcome (State.withPorts p) (afterBlock r k) := by
  obtain ⟨u, stop⟩ := r
  cases stop with
  | none => exact congrArg Host.Outcome.next (hk u)
  | some c => exact raise_withPorts p u c

theorem indexAfterBlock_withPorts (p : Ports) (s : State) (x : Reg) :
    (s.withPorts p).indexAfterBlock x = (s.indexAfterBlock x).withPorts p := by
  rw [indexAfterBlock_eq, indexAfterBlock_eq]
  rfl

theorem keyDown_withPorts (h : p.keys = s.ports.keys) : (s.withPorts p).keyDown x = s.keyDown x :=
  congrArg (BitVec.getLsbD · _) h

theorem drawHeld_withPorts (h : s.quirks.displayWait = true → p.dispReady = s.ports.dispReady) :
    (s.withPorts p).drawHeld = s.drawHeld := by
  unfold State.drawHeld
  change (s.quirks.displayWait && !p.dispReady) = (s.quirks.displayWait && !s.ports.dispReady)
  cases hwait : s.quirks.displayWait with
  | false => rfl
  | true => rw [h hwait]

theorem drawSprite_withPorts (h : p.collision = s.ports.collision) (rows : List Byte) :
    (s.withPorts p).drawSprite x y rows = (s.drawSprite x y rows).withPorts p := by
  obtain ⟨_, _, _, _, _⟩ := p
  cases h
  rfl

/-! ### The instructions that use a port or have more than one outcome -/

theorem execSkp_withPorts (h : p.keys = s.ports.keys) :
    execSkp x (s.withPorts p) = mapOutcome (State.withPorts p) (execSkp x s) := by
  rw [execSkp, keyDown_withPorts h]
  rfl

theorem execSknp_withPorts (h : p.keys = s.ports.keys) :
    execSknp x (s.withPorts p) = mapOutcome (State.withPorts p) (execSknp x s) := by
  rw [execSknp, keyDown_withPorts h]
  rfl

theorem execRnd_withPorts (h : p.rnd = s.ports.rnd) (nn : Byte) :
    execRnd x nn (s.withPorts p) = mapOutcome (State.withPorts p) (execRnd x nn s) :=
  congrArg (fun b => Host.Outcome.next ((s.withPorts p).setV x (b &&& nn)).advance) h

theorem execCall_withPorts (nnn : Addr12) :
    execCall nnn (s.withPorts p) = mapOutcome (State.withPorts p) (execCall nnn s) := by
  by_cases room : s.sp < 16
  · rw [execCall_of_room room, execCall_of_room (s := s.withPorts p) room]
    rfl
  · rw [execCall_of_full (Nat.le_of_not_lt room), execCall_of_full (s := s.withPorts p) (Nat.le_of_not_lt room)]
    exact raise_withPorts p s _

theorem execRet_withPorts : execRet (s.withPorts p) = mapOutcome (State.withPorts p) (execRet s) := by
  cases hs : s.stack with
  | nil =>
    rw [execRet_of_nil hs, execRet_of_nil (s := s.withPorts p) hs]
    exact raise_withPorts p s _
  | cons a rest =>
    rw [execRet_of_pop (pop_of_cons hs), execRet_of_pop (pop_of_cons (s := s.withPorts p) hs)]
    rfl

theorem execDrw_withPorts (hready : s.quirks.displayWait = true → p.dispReady = s.ports.dispReady)
    (hcollision : p.collision = s.ports.collision) (n : Nibble) :
    execDrw x y n (s.withPorts p) = mapOutcome (State.withPorts p) (execDrw x y n s) := by
  have hheld := drawHeld_withPorts hready
  by_cases held : s.drawHeld = true
  · rw [execDrw_of_held held, execDrw_of_held (hheld.trans held)]
    rfl
  · rw [execDrw_of_not_held held, execDrw_of_not_held (hheld ▸ held), readBytes_withPorts]
    change orRaise _ (readBytes s (s.effAddr 0) n.toNat) _ = _
    cases readBytes s (s.effAddr 0) n.toNat with
    | ok rows => exact congrArg Host.Outcome.next (drawSprite_withPorts hcollision rows)
    | error c => exact raise_withPorts p s c

theorem execLdVxK_withPorts (h : p.keyEvent = s.ports.keyEvent) :
    execLdVxK x (s.withPorts p) = mapOutcome (State.withPorts p) (execLdVxK x s) := by
  cases hk : s.ports.keyEvent with
  | none =>
    rw [execLdVxK_of_none hk, execLdVxK_of_none (s := s.withPorts p) (h.trans hk)]
    rfl
  | some k =>
    rw [execLdVxK_of_some hk, execLdVxK_of_some (s := s.withPorts p) (h.trans hk)]
    rfl

theorem execLdB_withPorts : execLdB x (s.withPorts p) = mapOutcome (State.withPorts p) (execLdB x s) := by
  unfold execLdB
  rw [storeBytes_withPorts]
  exact afterBlock_withPorts _ fun _ => rfl

theorem execStRegs_withPorts : execStRegs x (s.withPorts p) = mapOutcome (State.withPorts p) (execStRegs x s) := by
  unfold execStRegs
  rw [storeBytes_withPorts]
  exact afterBlock_withPorts _ fun u => congrArg State.advance (indexAfterBlock_withPorts p u x)

theorem execLdRegs_withPorts : execLdRegs x (s.withPorts p) = mapOutcome (State.withPorts p) (execLdRegs x s) := by
  unfold execLdRegs
  rw [loadRegs_withPorts]
  exact afterBlock_withPorts _ fun u => congrArg State.advance (indexAfterBlock_withPorts p u x)

end

/-! ### Every instruction -/

/-- A port that the instruction does not use is read by nothing and recorded as it is. -/
theorem exec_withPorts {i : Instr} {s : State} {p : Ports} (h : SameUsedPorts i s.quirks p s.ports) :
    exec i (s.withPorts p) = mapOutcome (State.withPorts p) (exec i s) := by
  cases i with
  | ret => exact execRet_withPorts
  | call nnn => exact execCall_withPorts nnn
  | skp x => exact execSkp_withPorts h
  | sknp x => exact execSknp_withPorts h
  | rnd x nn => exact execRnd_withPorts h nn
  | drw x y n =>
    obtain ⟨hready, hcollision⟩ := h
    exact execDrw_withPorts hready hcollision n
  | ldVxK x => exact execLdVxK_withPorts h
  | ldB x => exact execLdB_withPorts
  | stRegs x => exact execStRegs_withPorts
  | ldRegs x => exact execLdRegs_withPorts
  | _ => rfl

/-- Settles O26: the state with sample `p` is the one with sample `q` and `p` recorded in its place. -/
theorem unusedPortsHaveNoEffect : Obligations.UnusedPortsHaveNoEffect := fun _ s _ q h =>
  exec_withPorts (s := { s with ports := q }) h

end Sys2Proof.Machine

/-! ## Exceptions and timer ticks (spec/60_exceptions.md rules R204 to R214)

A step that finds no instruction, the state that a failing instruction is raised in, then the ticks on their own and at the
start of a cycle. -/

namespace Sys2Proof.Machine

/-! ### A word with no instruction (rule R204) -/

theorem step_of_decodeWord_none {s : State} {raw : Word} (hrun : s.fault = none)
    (hfetch : fetch s.beginCycle = .ok raw) (hdecode : decodeWord raw = none) :
    step s = raise .unknownOpcode s.beginCycle := by
  simp only [step, hrun, hfetch, orRaise, hdecode]

/-- Settles O37: the condition is raised in the state at the start of the cycle. -/
theorem unknownOpcodeHalts : Obligations.UnknownOpcodeHalts :=
  fun _ _ hrun hfetch hdecode => step_of_decodeWord_none hrun hfetch hdecode

/-! ### A failing instruction (rules R46, R205, R208) -/

/-- What instruction `i` can have made of `s` when it raises its condition: nothing, or what its block had moved. -/
inductive BeforeFault : Instr → State → State → Prop
  | unchanged {i s} : BeforeFault i s s
  | digits {x s} : BeforeFault (.ldB x) s (storeBytes s (s.effAddr 0) (bcdDigits (s.getV x))).1
  | store {x s} : BeforeFault (.stRegs x) s (storeBytes s (s.effAddr 0) (s.blockBytes x)).1
  | load {x s} : BeforeFault (.ldRegs x) s (loadRegs s (s.effAddr 0) (regsUpTo x)).1

section
variable {i : Instr} {s u : State} {f : Fault}

/-- An access that fails raises its condition in the state that it found. -/
theorem orRaise_fault_latch {α : Type} {r : Except Condition α} {k : α → State}
    (h : orRaise s r (fun a => .next (k a)) = .fault f) : ∃ c : Condition, f = c.toFault (s.latch c) := by
  cases r with
  | ok a => cases h
  | error c => exact ⟨c, (raise_eq_fault.mp h).symm⟩

theorem execDrw_fault_latch {x y : Reg} {n : Nibble} (h : execDrw x y n s = .fault f) :
    ∃ c : Condition, f = c.toFault (s.latch c) := by
  unfold execDrw at h
  split at h
  · cases h
  · exact orRaise_fault_latch h

/-- The six instructions that can fail do so in a state of `BeforeFault`. -/
theorem exec_fault_latch (h : exec i s = .fault f) :
    ∃ u, BeforeFault i s u ∧ ∃ c : Condition, f = c.toFault (u.latch c) := by
  cases i with
  | call nnn => exact ⟨s, .unchanged, orRaise_fault_latch h⟩
  | ret => exact ⟨s, .unchanged, orRaise_fault_latch h⟩
  | drw x y n => exact ⟨s, .unchanged, execDrw_fault_latch h⟩
  | ldB x => exact ⟨_, .digits, afterBlock_fault_latch h⟩
  | stRegs x => exact ⟨_, .store, afterBlock_fault_latch (k := fun u => (u.indexAfterBlock x).advance) h⟩
  | ldRegs x => exact ⟨_, .load, afterBlock_fault_latch (k := fun u => (u.indexAfterBlock x).advance) h⟩
  | _ => cases h

@[simp] theorem storeBytes_v (s : State) (a : Nat) (bs : List Byte) : (storeBytes s a bs).1.v = s.v := by
  rw [storeBytes_only_mem]

@[simp] theorem loadRegs_mem (s : State) (a : Nat) (rs : List Reg) : (loadRegs s a rs).1.mem = s.mem := by
  rw [loadRegs_only_v]

theorem BeforeFault.only_v_mem (h : BeforeFault i s u) : u = { s with v := u.v, mem := u.mem } := by
  cases h with
  | unchanged => rfl
  | digits | store => rw [storeBytes_only_mem]
  | load => rw [loadRegs_only_v]

theorem BeforeFault.v_eq (h : BeforeFault i s u) (hload : ∀ x, i ≠ .ldRegs x) : u.v = s.v := by
  cases h with
  | unchanged => rfl
  | digits | store => exact storeBytes_v ..
  | @load x => exact absurd rfl (hload x)

theorem BeforeFault.mem_eq (h : BeforeFault i s u) (hstore : ∀ x, i ≠ .ldB x ∧ i ≠ .stRegs x) : u.mem = s.mem := by
  cases h with
  | unchanged => rfl
  | @digits x => exact absurd rfl (hstore x).left
  | @store x => exact absurd rfl (hstore x).right
  | load => exact loadRegs_mem ..

theorem BeforeFault.digits_byteAt {x : Reg} {a : Nat} (h : BeforeFault (.ldB x) s u)
    (ha : ¬ (inBlock (s.effAddr 0) 3 a ∧ a < 4096)) : u.byteAt a = s.byteAt a := by
  cases h with
  | unchanged => rfl
  | digits => exact storeBytes_byteAt_outside ha

theorem BeforeFault.store_byteAt {x : Reg} {a : Nat} (h : BeforeFault (.stRegs x) s u)
    (ha : ¬ (inBlock (s.effAddr 0) (x.toNat + 1) a ∧ a < 4096)) : u.byteAt a = s.byteAt a := by
  cases h with
  | unchanged => rfl
  | store => exact storeBytes_byteAt_outside (by rwa [blockBytes_length])

theorem BeforeFault.load_getV {x q : Reg} (h : BeforeFault (.ldRegs x) s u)
    (hq : ¬ (q.toNat ≤ x.toNat ∧ s.effAddr q.toNat < 4096)) : u.getV q = s.getV q := by
  cases h with
  | unchanged => rfl
  | load => exact (loadRegs_getV s (s.effAddr 0) x q).trans (if_neg hq)

end

/-- Settles O40: the latch writes FAULT and `proceed`, and what it is set in is a state of `BeforeFault`. -/
theorem failedExecuteLeavesTheRest : Obligations.FailedExecuteLeavesTheRest := by
  intro i s f h
  obtain ⟨u, hu, c, rfl⟩ := exec_fault_latch h
  rw [toFault_halted]
  exact ⟨c, rfl, congrArg (State.latch · c) hu.only_v_mem, hu.v_eq, hu.mem_eq,
    fun _ hi _ ha => (hi ▸ hu).digits_byteAt ha, fun _ hi _ ha => (hi ▸ hu).store_byteAt ha,
    fun _ hi _ hq => (hi ▸ hu).load_getV hq⟩

/-! ### Timer ticks (rules R213, R214) -/

theorem tickTimes_toNat (n : Nat) (d : Byte) : (tickTimes n d).toNat = d.toNat - n := by
  induction n generalizing d with
  | zero => rfl
  | succ n ih => rw [tickTimes, ih, tickByte_toNat, Nat.sub_sub, Nat.add_comm]

/-- The ticks of the host count each timer as the ticks of a cycle's supply do. -/
theorem timerTick_iterate_dt_st (n : Nat) (s : State) :
    (State.timerTick^[n] s).dt = tickTimes n s.dt ∧ (State.timerTick^[n] s).st = tickTimes n s.st := by
  induction n generalizing s with
  | zero => exact ⟨rfl, rfl⟩
  | succ n ih => exact ih s.timerTick

/-- Settles O19: one tick is `tickByte` on both timers, and `n` ticks are `tickTimes n`. -/
theorem timerTickCountsDown : Obligations.TimerTickCountsDown := by
  refine ⟨fun s => ⟨tickByte_toNat s.dt, tickByte_toNat s.st, rfl, ?_⟩, fun n s => ?_, tickTimes_toNat⟩
  · exact (soundActive_iff s).trans (BitVec.toNat_inj (y := 0)).not.symm
  · obtain ⟨hdt, hst⟩ := timerTick_iterate_dt_st n s
    rw [hdt, hst]
    exact ⟨tickTimes_toNat n s.dt, tickTimes_toNat n s.st⟩

/-! ### The ticks of a cycle (rules R87, R213; log 3) -/

theorem stepWith_of_running {s : State} (h : HostSample) (hrun : s.fault = none) :
    stepWith h s = step { s with schedule := h :: s.schedule } := by
  rw [stepWith, hrun]

/-- A running machine's step depends on the state at the start of the cycle only. -/
theorem step_eq_of_beginCycle_eq {s t : State} (hs : s.fault = none) (ht : t.fault = none)
    (hbegin : s.beginCycle = t.beginCycle) : step s = step t := by
  unfold step
  rw [hs, ht, hbegin]

/-- Settles O20: the two machines have one state at the start of the cycle. -/
theorem ticksBeforeACycleAreTimerTicks : Obligations.TicksBeforeACycleAreTimerTicks := by
  intro s h n hrun
  rw [stepWith_of_running _ hrun, stepWith_of_running (s := s.timerTick) _ hrun]
  exact step_eq_of_beginCycle_eq hrun hrun rfl

end Sys2Proof.Machine

/-! ## The first cycle and the end of a run (spec/70_reset_and_hazards.md rules R231, R233) -/

namespace Sys2Proof.Machine

/-- The outside's part of a cycle changes neither memory nor `pc`. -/
@[simp] theorem fetch_beginCycle (s : State) : fetch s.beginCycle = fetch s := by
  rw [fetch_eq, fetch_eq]
  rfl

/-! ### A jump to itself (rules R120, R233) -/

/-- An address up to 0xFFE fits a jump's 12-bit target. -/
theorem target_toNat {a : Word} (ha : a ≤ 0xFFE#16) : (a.setWidth 12).toNat = a.toNat := by
  bv_omega

/-- The word `0x1000 | pc` of rule R233 is the jump to `pc`. -/
theorem jump_word_eq {a : Word} (ha : a ≤ 0xFFE#16) : 0x1000#16 ||| a = 0x1#4 ++ a.setWidth 12 := by
  refine BitVec.eq_of_toNat_eq ?_
  rw [BitVec.toNat_or, BitVec.toNat_append, target_toNat ha]
  rfl

theorem terminal_beginCycle {s : State} (h : s.terminal) : s.beginCycle.terminal := by
  obtain ⟨hrun, hpc, hfetch⟩ := h
  exact ⟨hrun, hpc, (fetch_beginCycle s).trans hfetch⟩

/-- Settles O57: the step runs the jump to `pc`, which leaves the state at the start of the cycle whole. -/
theorem terminalStatesStay : Obligations.TerminalStatesStay := by
  refine fun s h => ⟨?_, terminal_beginCycle h⟩
  obtain ⟨hrun, hpc, hfetch⟩ := h
  obtain ⟨⟨-, hdecode⟩, -, hself⟩ := jumpGoesToItsTarget s.beginCycle (s.pc.setWidth 12)
  rw [← jump_word_eq hpc] at hdecode
  rw [step_of_decodeWord hrun ((fetch_beginCycle s).trans hfetch) hdecode]
  exact hself (target_toNat hpc).symm

/-! ### The first fetch (rule R231) -/

/-- The first fetch after Reset reads the word at 0x200 of the image. -/
theorem fetch_hostReset (s : State) (q : Quirks) (img : Vector Byte 4096) :
    fetch (s.hostReset q img) = .ok (img[0x200] ++ img[0x201]) := by
  obtain ⟨-, -, hpc, -, -, -, -, hmem, -⟩ := resetLeavesTheStatedValues s q img
  have hhi := hmem 0x200 (by decide)
  have hlo := hmem 0x201 (by decide)
  rw [← hhi, ← hlo, fetch_eq, hpc]
  rfl

theorem decodeWord_zero : decodeWord 0 = none := (illegalWords 0 0 0 0).mpr (.inl (by decide))

/-- Settles O54: Reset leaves `pc` at 0x200 and the image in memory, and the zero word is illegal. -/
theorem firstFetchIsAtTheOrigin : Obligations.FirstFetchIsAtTheOrigin := by
  intro s q img
  have hfetch := (fetch_beginCycle _).trans (fetch_hostReset s q img)
  refine ⟨hfetch, fun hhi hlo => ?_⟩
  rw [hhi, hlo] at hfetch
  exact unknownOpcodeHalts _ _ rfl hfetch decodeWord_zero

end Sys2Proof.Machine
